-- ==== Sys2Proof/Word.lean ====
section
/-! DEFINITION. The words of the machine: bytes, 16-bit coefficient words, 24-bit raw counts, 32-bit outputs, the 8-word table. -/

namespace Sys2Proof

/-- A byte of the bus or of the host interface. -/
abbrev Byte := BitVec 8

/-- A coefficient word, 16 bits unsigned (R5, R14). -/
abbrev Word := BitVec 16

/-- A raw ADC count, 24 bits unsigned (R5, R73). -/
abbrev RawCount := BitVec 24

/-- An output of the pipeline, 32 bits two's complement (R5, R73). -/
abbrev Out32 := BitVec 32

/-- The 8-word table of R14: slot 0 the CRC word, slots 1 to 6 the coefficients C1 to C6, slot 7 the scratch slot. -/
abbrev Table := Vector Word 8

end Sys2Proof
end

