-- ==== Sys2Proof/Config.lean ====
section
/-! DEFINITION. The implementation parameters of R5. What the source fixes has a value here; what the source leaves OPEN is an
opaque constant, so that no proof can see a value of it (log 4). -/

namespace Sys2Proof

/-- `PROM_STRIDE` (R5): spacing of the PROM addresses. -/
def Config.promStride : Nat := 2

/-- `CRC_POLY` (R5, R64). -/
def Config.crcPoly : Word := 0x3000#16

/-- `CMD_ADC_READ` (R5, R49): the command byte written before an ADC result is read. -/
def Config.cmdAdcRead : Byte := 0x00#8

/-- The free choice behind `PROM_BASE` (R5: OPEN, with `PROM_BASE + 14 <= 0xFF`, so 0 to 241). -/
opaque Config.promBaseChoice : Fin 242

/-- `PROM_BASE` (R5): address-select command byte of slot 0. -/
def Config.promBase : Byte := BitVec.ofNat 8 Config.promBaseChoice.val

/-- `CMD_RESET` (R5): OPEN. -/
opaque Config.cmdReset : Byte

/-- `CONV_BASE_T` (R5): OPEN, base command of a temperature conversion. -/
opaque Config.convBaseT : Byte

/-- `CONV_BASE_P` (R5): OPEN, base command of a pressure conversion. -/
opaque Config.convBaseP : Byte

/-- `DEV_ADDR` (R5): OPEN, the device's 7-bit bus address. -/
opaque Config.devAddr : BitVec 7

/-- `CONV_WAIT_MS(c)` (R5): OPEN, a natural number for each resolution code. -/
opaque Config.convWaitMs : BitVec 3 → Nat

/-- The free choice behind `OSR_RESET` (R5: OPEN, in 0 to 5; the spec's default is 5). -/
opaque Config.osrResetChoice : Fin 6

/-- `OSR_RESET` (R5, R23): the resolution code after reset. -/
def Config.osrReset : BitVec 3 := BitVec.ofNat 3 Config.osrResetChoice.val

end Sys2Proof
end

