-- ==== Sys2Proof/Machine/Crc.lean ====
section
/-! DEFINITION. The CRC-4 function over an 8-word table (R62 to R67): pure, on a working copy. -/

namespace Sys2Proof.Machine

/-- The working copy (R62): bits 15:12 of slot 0 cleared, slot 7 zero. -/
def workingCopy (t : Table) : Table := (t.set 0 (t[0] &&& 0x0FFF#16)).set 7 0x0000#16

/-- The bytes of the bitstream, each in the low half of a u16 (R63): word by word in slot order, the high byte (`c >> 8`) of
each word before the low byte (`c & 0x00FF`). -/
def bitstream (c : Table) : List Word := c.toList.flatMap fun (w : Word) => ([w >>> 8, w &&& 0x00FF#16] : List Word)

/-- One shift step (R64). -/
def crcStep (rem : Word) : Word :=
  if rem.getLsbD 15 then (rem <<< 1) ^^^ Config.crcPoly else rem <<< 1

/-- `n` shift steps. -/
def crcSteps : Nat → Word → Word
  | 0, rem => rem
  | n + 1, rem => crcSteps n (crcStep rem)

/-- One byte (R63): XOR it into bits 7:0 of the remainder, then eight steps. -/
def crcAbsorb (rem byte : Word) : Word := crcSteps 8 (rem ^^^ byte)

/-- The remainder after a list of bytes. -/
def crcRemainder (bytes : List Word) (rem : Word) : Word := bytes.foldl crcAbsorb rem

/-- `CRC4(t)` (R63, R65): the top 4 bits of the final remainder. -/
def crc4 (t : Table) : BitVec 4 := (crcRemainder (bitstream (workingCopy t)) 0x0000#16).extractLsb' 12 4

/-- The stored CRC nibble, `t[0][15:12]` (R16). -/
def storedCrc (t : Table) : BitVec 4 := t[0].extractLsb' 12 4

/-- The match test (R66). -/
def crcOk (t : Table) : Bool := crc4 t == storedCrc t

end Sys2Proof.Machine
end

