-- ==== Sys2Proof/Machine/State.lean ====
section
/-! DEFINITION. The state of the block (R13), with the model's own fields for what the host and the bus oracle supply and
receive; the faults and refusals; the state after reset (R23). -/

namespace Sys2Proof.Machine

/-- A bus status (R11). -/
inductive BusStatus where
  /-- "acknowledged success" -/
  | ack
  /-- "address not acknowledged / overflow" -/
  | nack
  /-- "other transfer error" -/
  | err
deriving DecidableEq, Repr

/-- An event of `TRACE` (R19). -/
inductive Event where
  /-- `W(b, st)`: a write of the command byte `b` (R52). -/
  | write (b : Byte) (st : BusStatus)
  /-- `R(n, st, bytes)`: a read of `n` bytes (R53). -/
  | read (n : Nat) (st : BusStatus) (bytes : List Byte)
  /-- `PRB(st)`: an address-only probe (R54). -/
  | probe (st : BusStatus)
  /-- `WAIT(ms)`: a wait (R55). -/
  | wait (ms : Nat)
  /-- `INI`: the transport initialisation of INIT (R58). -/
  | ini
deriving DecidableEq, Repr

/-- What one bus exchange asks of the device (R52 to R54). -/
inductive ExchangeKind where
  | write (b : Byte)
  | read (n : Nat)
  | probe
deriving DecidableEq, Repr

/-- One bus exchange: the 7-bit address it is sent to, and what it asks. -/
structure Exchange where
  addr : BitVec 7
  kind : ExchangeKind
deriving DecidableEq, Repr

/-- The bus oracle's answer to one exchange (R52 to R54, R98(a)). -/
inductive Answer where
  /-- The exchange ends with a status. The bytes are those a read delivers; a write or a probe takes none of them. -/
  | answered (st : BusStatus) (bytes : List Byte)
  /-- The transport never completes the exchange. -/
  | never
deriving DecidableEq, Repr

/-- What the host does to the block: it sends a request byte (R37) or resets the block (R107). -/
inductive HostInput where
  | byte (b : Byte)
  | blockReset
deriving DecidableEq, Repr

/-- A response (R47): the status byte, then the operation's data. -/
structure Response where
  status : Byte
  data : List Byte
deriving DecidableEq, Repr

/-- The state. The first four fields are the spec's (R13). The others are the model's own (logs 1, 2 and 6): what the host and
the bus oracle have still to say, and what the host has been told. -/
structure State where
  /-- `PROM[0..7]` (R14); `none` while unset (R17, R23). -/
  prom : Option Table
  /-- `VALID` (R17). -/
  valid : Bool
  /-- `OSR` (R18). -/
  osr : BitVec 3
  /-- `TRACE` (R19), in issue order. -/
  trace : List Event
  /-- Request bytes and block resets still to come, in order. -/
  inputs : List HostInput
  /-- The oracle's answers still to come, one an exchange, in exchange order. -/
  script : List Answer
  /-- The oracle's answer to every exchange after `script`. -/
  afterScript : Answer
  /-- The responses given so far, in request order. -/
  responses : List Response
deriving DecidableEq, Repr

/-- Why the machine stops. -/
inductive Fault where
  /-- `NotValidated` (R96). Raised by COMP and READPROM when `VALID = 0`; in a state no run reaches (`VALID = 1` and `PROM`
  unset) also by READTP (log 5). Safe: it gives no value. -/
  | notValidated
  /-- The transport never completes this exchange (R98(a)): the operation is stuck, with no response ever. Raised by PROBE,
  DEVRESET, LOAD and READTP. Safe: the machine stops (log 3). -/
  | busNeverCompletes (x : Exchange)
deriving DecidableEq, Repr

/-- Why a request has no meaning (R97). -/
inductive Refusal where
  /-- An instruction without a meaning in this model. Raised by no instruction. Safe. -/
  | notModelled (mnemonic : String)
  /-- `op` is 0x0 or 0xA to 0xF (R45). Raised by the fetch. Safe: R97 says the request has no meaning. -/
  | reservedOp
  /-- The header's `z` bit is 1 (R44). Raised by the fetch. Safe. -/
  | zBitSet
  /-- The header's `k` is not 0 in a format H, HT or HD (R44). Raised by the fetch. Safe. -/
  | nonzeroCode
  /-- SETRES with code 6 or 7 (R45). Raised by the fetch and by SETRES. Safe. -/
  | reservedResolution
deriving DecidableEq, Repr

/-- The answer an absent device gives (R109: "If the device is absent, the exchanges answer `NACK`"). -/
def Answer.absent : Answer := .answered .nack []

/-- The state right after reset (R23, R107, R108). The first four fields are the spec's. The other four are the model's choice
(logs 1, 2 and 6): no request pending, no answer scripted and no device on the bus, no response given. -/
def State.reset : State where
  prom := none
  valid := false
  osr := Config.osrReset
  trace := []
  inputs := []
  script := []
  afterScript := Answer.absent
  responses := []

end Sys2Proof.Machine
end

