-- ==== Sys2Proof/Machine/Flags.lean ====
section
/-! DEFINITION. The status codes, the status byte and the one-byte results of the responses (R46 to R48). The block has no
condition codes (R21): `VALID` is its only flag. -/

namespace Sys2Proof.Machine

/-- The three error kinds (R95). -/
inductive ErrorKind where
  /-- "peripheral absent/unresponsive" -/
  | noAcknowledge
  /-- "generic bus failure, including implausible zero ADC readings" -/
  | transferError
  /-- "calibration data failed integrity check" -/
  | crcError
deriving DecidableEq, Repr

/-- A response's status: OK or an error kind (R46). -/
inductive Status where
  | ok
  | error (e : ErrorKind)
deriving DecidableEq, Repr

/-- The numeric status code (R46). -/
def Status.code : Status → BitVec 2
  | .ok => 0
  | .error .noAcknowledge => 1
  | .error .transferError => 2
  | .error .crcError => 3

/-- The status byte (R47): the code in bits 1:0, `VALID` in bit 2, zero in bits 7:3. -/
def statusByte (st : Status) (valid : Bool) : Byte := 0#5 ++ BitVec.ofBool valid ++ st.code

/-- PROBE's data byte (R48): connected in bit 0, zero in bits 7:1. -/
def connectedByte (connected : Bool) : Byte := 0#7 ++ BitVec.ofBool connected

/-- CRCCHK's data byte (R48): the computed CRC in bits 3:0, the match bit in bit 4, zero in bits 7:5. -/
def crcByte (crc : BitVec 4) (isMatch : Bool) : Byte := 0#3 ++ BitVec.ofBool isMatch ++ crc

end Sys2Proof.Machine
end

