-- ==== Sys2Proof/Syntax.lean ====
section
/-! DEFINITION. The host requests, one constructor per row of the opcode table (R39). -/

namespace Sys2Proof

/-- The nine host operations with their operands (R39 to R43). -/
inductive Instr where
  /-- INIT: initialise the bus transport (R58). -/
  | init
  /-- PROBE: does the device acknowledge (R59). -/
  | probe
  /-- DEVRESET: send the device reset command (R60). -/
  | devreset
  /-- SETRES: the operand is the resolution code `k`, rate `256 * 2^k` (R40, R88). -/
  | setres (code : BitVec 3)
  /-- LOAD: fetch and validate the coefficients (R68). -/
  | load
  /-- CRCCHK: the operand is the host's table `t[0..7]` (R42, R69). -/
  | crcchk (table : Table)
  /-- COMP: the raw temperature count D2, then the raw pressure count D1 (R43, R86). -/
  | comp (d2 d1 : RawCount)
  /-- READTP: measure (R91). -/
  | readtp
  /-- READPROM: the operand is the slot index (R41, R70). -/
  | readprom (slot : BitVec 3)
deriving DecidableEq, Repr

end Sys2Proof
end

