-- ==== Sys2Proof/WellFormed.lean ====
section
/-! DEFINITION. Which instructions the encoding of R39 admits: every operand of every operation, but for SETRES, whose codes
6 and 7 are reserved (R45). -/

namespace Sys2Proof

/-- The check on an instruction's operands (R40 to R45). -/
def Instr.wf : Instr → Bool
  | .init => true
  | .probe => true
  | .devreset => true
  | .setres code => decide (code.toNat ≤ 5)
  | .load => true
  | .crcchk _ => true
  | .comp _ _ => true
  | .readtp => true
  | .readprom _ => true

/-- The instruction is one the encoding admits. -/
abbrev WellFormed (i : Instr) : Prop := i.wf = true

end Sys2Proof
end

