-- ==== Sys2Proof/Decode.lean ====
section
/-! DEFINITION. Decoding request bytes (R37 to R45), total on any bytes and rejecting by name; the byte-order helpers (R27 to
R29); the encoder, written from the same tables. -/

namespace Sys2Proof

/-! ### Byte order -/

/-- Two bytes, most significant first, as a word (R27). -/
def be16 (b0 b1 : Byte) : Word := (b0.setWidth 16 <<< 8) ||| b1.setWidth 16

/-- Three bytes, most significant first, as a 24-bit count (R28). -/
def be24 (b0 b1 b2 : Byte) : RawCount :=
  (b0.setWidth 24 <<< 16) ||| (b1.setWidth 24 <<< 8) ||| b2.setWidth 24

/-- A word as two bytes, most significant first (R27, R29). -/
def bytes16 (w : Word) : List Byte := [w.extractLsb' 8 8, w.extractLsb' 0 8]

/-- A 24-bit count as three bytes, most significant first (R28, R29). -/
def bytes24 (w : RawCount) : List Byte :=
  [w.extractLsb' 16 8, w.extractLsb' 8 8, w.extractLsb' 0 8]

/-- A 32-bit value as four bytes, most significant first (R29, R48). -/
def bytes32 (w : Out32) : List Byte :=
  [w.extractLsb' 24 8, w.extractLsb' 16 8, w.extractLsb' 8 8, w.extractLsb' 0 8]

/-! ### The header byte (R38) -/

/-- `op`, bits 7:4. -/
def headerOp (h : Byte) : BitVec 4 := h.extractLsb' 4 4

/-- `z`, bit 3: must be 0. -/
def headerZ (h : Byte) : Bool := h.getLsbD 3

/-- `k`, bits 2:0. -/
def headerK (h : Byte) : BitVec 3 := h.extractLsb' 0 3

/-- The header byte with a given `op` and `k`, and `z = 0`. -/
def header (op : BitVec 4) (k : BitVec 3) : Byte := (op.setWidth 8 <<< 4) ||| k.setWidth 8

/-- A request's length in bytes, known from its first byte (R37): 17 in format HT, 7 in format HD, else 1. -/
def requestLength (h : Byte) : Nat :=
  match (headerOp h).toNat with
  | 6 => 17
  | 7 => 7
  | _ => 1

/-! ### The decoder -/

/-- Why bytes are no request. -/
inductive Reject where
  /-- `op` is 0x0 or 0xA to 0xF (R45). -/
  | reservedOp
  /-- `z` is 1 (R44). -/
  | zBitSet
  /-- `k` is not 0 in a format H, HT or HD (R44). -/
  | nonzeroCode
  /-- SETRES with `k` 6 or 7 (R45). -/
  | reservedResolution
  /-- The header's payload is not all there (yet): no complete request. -/
  | truncated
deriving DecidableEq, Repr

/-- What the decoder reads from bytes: an instruction and the bytes after it, or a rejection. -/
inductive Decoded where
  | instr (i : Instr) (rest : List Byte)
  | rejected (why : Reject)
deriving DecidableEq, Repr

/-- The fixed-field check of formats H, HT and HD (R38, R44): `z` and `k` are 0. -/
def requireZeroZK (h : Byte) (good : Decoded) : Decoded :=
  if headerZ h then .rejected .zBitSet
  else if headerK h ≠ 0#3 then .rejected .nonzeroCode
  else good

/-- The fixed-field check of format HC (R38, R44): `z` is 0. -/
def requireZeroZ (h : Byte) (good : Decoded) : Decoded :=
  if headerZ h then .rejected .zBitSet else good

/-- The CRCCHK payload (R42): eight words, each most significant byte first, in slot order. -/
def decodeTable : List Byte → Decoded
  | a0 :: b0 :: a1 :: b1 :: a2 :: b2 :: a3 :: b3 :: a4 :: b4 :: a5 :: b5 :: a6 :: b6 :: a7 :: b7 :: rest =>
    .instr (.crcchk #v[be16 a0 b0, be16 a1 b1, be16 a2 b2, be16 a3 b3,
                       be16 a4 b4, be16 a5 b5, be16 a6 b6, be16 a7 b7]) rest
  | _ => .rejected .truncated

/-- The COMP payload (R43): D2 then D1, each most significant byte first. -/
def decodeCounts : List Byte → Decoded
  | b0 :: b1 :: b2 :: b3 :: b4 :: b5 :: rest =>
    .instr (.comp (be24 b0 b1 b2) (be24 b3 b4 b5)) rest
  | _ => .rejected .truncated

/-- SETRES's operand (R40, R45). -/
def decodeResolution (k : BitVec 3) (rest : List Byte) : Decoded :=
  if k.toNat ≤ 5 then .instr (.setres k) rest else .rejected .reservedResolution

/-- The opcode map (R39) on a header byte and the bytes after it. -/
def decodeRequest (h : Byte) (rest : List Byte) : Decoded :=
  match (headerOp h).toNat with
  | 1 => requireZeroZK h (.instr .init rest)
  | 2 => requireZeroZK h (.instr .probe rest)
  | 3 => requireZeroZK h (.instr .devreset rest)
  | 4 => requireZeroZ h (decodeResolution (headerK h) rest)
  | 5 => requireZeroZK h (.instr .load rest)
  | 6 => requireZeroZK h (decodeTable rest)
  | 7 => requireZeroZK h (decodeCounts rest)
  | 8 => requireZeroZK h (.instr .readtp rest)
  | 9 => requireZeroZ h (.instr (.readprom (headerK h)) rest)
  | _ => .rejected .reservedOp

/-- The instruction at the head of a byte stream, and the bytes after it (R37). -/
def decode : List Byte → Decoded
  | [] => .rejected .truncated
  | h :: rest => decodeRequest h rest

/-! ### The encoder -/

/-- The bytes of an instruction (R37 to R43). -/
def encode : Instr → List Byte
  | .init => [header 0x1#4 0#3]
  | .probe => [header 0x2#4 0#3]
  | .devreset => [header 0x3#4 0#3]
  | .setres code => [header 0x4#4 code]
  | .load => [header 0x5#4 0#3]
  | .crcchk table => header 0x6#4 0#3 :: table.toList.flatMap bytes16
  | .comp d2 d1 => header 0x7#4 0#3 :: (bytes24 d2 ++ bytes24 d1)
  | .readtp => [header 0x8#4 0#3]
  | .readprom slot => [header 0x9#4 slot]

/-! ### The opcode table's numbering -/

/-- The bytes of the request whose bits are `w`, bit 0 the least significant bit of the header byte, bits 15..8 the next byte
and so on; bits from `nbits` up are 0, and the request is as long as its header byte says (R37). -/
def tableBytes (nbits w : Nat) : List Byte :=
  let v := w % 2 ^ nbits
  (List.range (requestLength (BitVec.ofNat 8 v))).map fun j => BitVec.ofNat 8 (v >>> (8 * j))

/-- The instruction the decoder reads from a row's bits. -/
def decodeTableWord (nbits w : Nat) : Option Instr :=
  match decode (tableBytes nbits w) with
  | .instr i _ => some i
  | .rejected _ => none

end Sys2Proof
end

