-- ==== Sys2Proof/Machine/Operands.lean ====
section
/-! DEFINITION. Operand forms: the resolution code and its rate (R18, R40), the command bytes the block sends (R49), the words
and counts received (R27, R28), and the outputs as bytes (R48). -/

namespace Sys2Proof.Machine

/-- The oversampling rate of a resolution code, `256 * 2^c` (R18, R40). -/
def oversamplingRate (code : BitVec 3) : Nat := 256 * 2 ^ code.toNat

/-- The resolution code of an oversampling rate, `log2(osr) - 8`, for the six rates of R18 and no others (R50). -/
def resolutionCode (rate : Nat) : Option (BitVec 3) :=
  match rate with
  | 256 => some 0
  | 512 => some 1
  | 1024 => some 2
  | 2048 => some 3
  | 4096 => some 4
  | 8192 => some 5
  | _ => none

/-- The address-select command byte of slot `i`, `PROM_BASE + 2*i` (R26, R49). -/
def promCommand (slot : BitVec 3) : Byte :=
  Config.promBase + BitVec.ofNat 8 (Config.promStride * slot.toNat)

/-- The conversion command byte, `u8((OSR * 2) | base)` (R49, R89). -/
def convCommand (code : BitVec 3) (base : Byte) : Byte := (code.setWidth 8 <<< 1) ||| base

/-- The word in two received bytes (R27, R61). A read answered ACK has exactly two (R53). -/
def wordOfBytes (bytes : List Byte) : Word := be16 (bytes.getD 0 0) (bytes.getD 1 0)

/-- The raw count in three received bytes (R28, R90). A read answered ACK has exactly three (R53). -/
def countOfBytes (bytes : List Byte) : RawCount :=
  be24 (bytes.getD 0 0) (bytes.getD 1 0) (bytes.getD 2 0)

/-- Slot `i` of a table (R14). -/
def slotOf (table : Table) (slot : BitVec 3) : Word := table[slot.toNat]

/-- A table with slot `i` replaced (LOAD's staging buffer, R68). -/
def setSlot (table : Table) (slot : BitVec 3) (w : Word) : Table := table.set slot.toNat w

/-- The slots in order, 0 to 7. -/
def allSlots : List (BitVec 3) := [0#3, 1#3, 2#3, 3#3, 4#3, 5#3, 6#3, 7#3]

/-- The two outputs as response data (R48): TOUT then P, each s32, most significant byte first. -/
def outputBytes (out : Int × Int) : List Byte :=
  bytes32 (BitVec.ofInt 32 out.1) ++ bytes32 (BitVec.ofInt 32 out.2)

end Sys2Proof.Machine
end

