-- ==== Sys2Proof/Machine/Ops.lean ====
section
/-! DEFINITION. The shared operations: the updates of the state, the bus primitives (R52 to R55), the mapping of a status to an
error and how an error ends an operation (R56, R100), the word read (R61), EnsureLoaded (R68), one conversion (R90), the
response (R47), and the block reset (R107). The block has no trap entry and no trap return (R100, R101): what an ISA calls an
exception is `finish` on a failed sequence. -/

namespace Sys2Proof.Machine

/-- The three outcomes of a step of this machine. -/
abbrev Step := Host.Outcome State Fault Refusal

/-! ### Updates of the state -/

/-- `TRACE <- TRACE ++ [e]` (R19). -/
def State.record (s : State) (e : Event) : State := { s with trace := s.trace ++ [e] }

/-- The oracle's answer has been taken. -/
def State.takeAnswer (s : State) : State := { s with script := s.script.tail }

/-- LOAD's commit (R68): all 8 words and the flag, together. -/
def State.commit (s : State) (t : Table) : State := { s with prom := some t, valid := true }

/-- `OSR <- c` (R88). -/
def State.setOsr (s : State) (c : BitVec 3) : State := { s with osr := c }

/-- The host has been given a response. -/
def State.answerHost (s : State) (r : Response) : State := { s with responses := s.responses ++ [r] }

/-- The host inputs still to come are `inputs`. -/
def State.withInputs (s : State) (inputs : List HostInput) : State := { s with inputs := inputs }

/-- The block reset (R107): every part of the block's state to its reset value, and no bus event. The host's and the oracle's
fields are not the block's, and stay. -/
def State.blockReset (s : State) : State :=
  { s with prom := none, valid := false, osr := Config.osrReset, trace := [] }

/-! ### How a sequence inside one operation goes on -/

/-- A sequence of exchanges has a result, or ends the operation with an error status (`fail(e)`, R8), or stops the machine. -/
inductive Res (α : Type) where
  | ok (a : α) (s : State)
  | fail (e : ErrorKind) (s : State)
  | stop (f : Fault)
deriving Repr

/-- The next part of a sequence runs only if the one before has a result (R56, R57, R99): the first error ends it. -/
def Res.andThen {α β : Type} (r : Res α) (k : α → State → Res β) : Res β :=
  match r with
  | .ok a s => k a s
  | .fail e s => .fail e s
  | .stop f => .stop f

/-- `respond(status, data)` (R8, R47): one response, its status byte made with `VALID` as it is after the operation. -/
def respond (st : Status) (data : List Byte) (s : State) : State :=
  s.answerHost { status := statusByte st s.valid, data := data }

/-- The end of an operation: `respond(OK, data)`, or for an error its status and no data (R8, R48, R56, R100). -/
def Res.finish (r : Res (List Byte)) : Step :=
  match r with
  | .ok data s => .next (respond .ok data s)
  | .fail e s => .next (respond (.error e) [] s)
  | .stop f => .fault f

/-! ### Bus primitives -/

/-- An exchange is sent to `DEV_ADDR` (R52 to R54). -/
def exchange (kind : ExchangeKind) : Exchange := { addr := Config.devAddr, kind := kind }

/-- The oracle's next answer (log 2). -/
def State.nextAnswer (s : State) : Answer := s.script.headD s.afterScript

/-- `BusWrite(b)` (R52). -/
def busWrite (b : Byte) (s : State) : Res BusStatus :=
  match s.nextAnswer with
  | .answered st _ => .ok st (s.takeAnswer.record (.write b st))
  | .never => .stop (.busNeverCompletes (exchange (.write b)))

/-- The status a read counts as (R53): a read that delivers a number of bytes other than `n` is answered as ERR. -/
def readStatus (n : Nat) (st : BusStatus) (bytes : List Byte) : BusStatus :=
  match st with
  | .ack => if bytes.length = n then .ack else .err
  | .nack => .nack
  | .err => .err

/-- `BusRead(n)` (R53). -/
def busRead (n : Nat) (s : State) : Res (BusStatus × List Byte) :=
  match s.nextAnswer with
  | .answered st bytes =>
    .ok (readStatus n st bytes, bytes) (s.takeAnswer.record (.read n (readStatus n st bytes) bytes))
  | .never => .stop (.busNeverCompletes (exchange (.read n)))

/-- `BusProbe()` (R54). -/
def busProbe (s : State) : Res BusStatus :=
  match s.nextAnswer with
  | .answered st _ => .ok st (s.takeAnswer.record (.probe st))
  | .never => .stop (.busNeverCompletes (exchange .probe))

/-- `Wait(ms)` (R55): an event, and always completes. -/
def busWait (ms : Nat) (s : State) : State := s.record (.wait ms)

/-- `check(st)` (R56). -/
def check (st : BusStatus) (s : State) : Res Unit :=
  match st with
  | .ack => .ok () s
  | .nack => .fail .noAcknowledge s
  | .err => .fail .transferError s

/-- `check(BusWrite(b))`. -/
def checkedWrite (b : Byte) (s : State) : Res Unit := (busWrite b s).andThen fun st s => check st s

/-- `(st, b) <- BusRead(n); check(st)`. -/
def checkedRead (n : Nat) (s : State) : Res (List Byte) :=
  (busRead n s).andThen fun r s => (check r.1 s).andThen fun _ s => .ok r.2 s

/-! ### The coefficient store -/

/-- `ReadWord(i)` (R61). -/
def readWord (slot : BitVec 3) (s : State) : Res Word :=
  (checkedWrite (promCommand slot) s).andThen fun _ s =>
  (checkedRead 2 s).andThen fun bytes s =>
  .ok (wordOfBytes bytes) s

/-- LOAD's loop over the slots (R68), into the staging buffer. -/
def fetchSlots (slots : List (BitVec 3)) (staging : Table) (s : State) : Res Table :=
  match slots with
  | [] => .ok staging s
  | slot :: slots => (readWord slot s).andThen fun w s => fetchSlots slots (setSlot staging slot w) s

/-- The staging buffer before the loop. Every slot of it is written before it is read (R68). -/
def emptyStaging : Table := Vector.replicate 8 0#16

/-- The CRC test and the commit (R68). -/
def validate (staging : Table) (s : State) : Res Unit :=
  if crcOk staging then .ok () (s.commit staging) else .fail .crcError s

/-- `EnsureLoaded()` (R68). -/
def ensureLoaded (s : State) : Res Unit :=
  if s.valid then .ok () s else (fetchSlots allSlots emptyStaging s).andThen validate

/-- The table, for an operation that observes `PROM` (R17, R96): the fault NotValidated while `VALID = 0`. -/
def readStore (s : State) : Res Table :=
  match s.valid, s.prom with
  | true, some t => .ok t s
  | true, none => .stop .notValidated
  | false, _ => .stop .notValidated

/-! ### Conversions -/

/-- `Convert(base)` (R90): one conversion, at the resolution `OSR` holds as it starts. -/
def convert (base : Byte) (s : State) : Res RawCount :=
  (checkedWrite (convCommand s.osr base) s).andThen fun _ s =>
  (checkedWrite Config.cmdAdcRead (busWait (Config.convWaitMs s.osr) s)).andThen fun _ s =>
  (checkedRead 3 s).andThen fun bytes s =>
  .ok (countOfBytes bytes) s

/-- The zero guard (R92). -/
def zeroGuard (d2 d1 : RawCount) (s : State) : Res Unit :=
  if d2 = 0#24 ∨ d1 = 0#24 then .fail .transferError s else .ok () s

end Sys2Proof.Machine
end

