-- ==== Sys2Proof/Machine/BusPort.lean ====
section
/-! DEFINITION. The thin operations INIT, PROBE and DEVRESET (40_bus_port.md). -/

namespace Sys2Proof.Machine

/-- INIT (R58). -/
def execInit (s : State) : Step := (Res.ok [] (s.record .ini)).finish

/-- PROBE (R59). -/
def execProbe (s : State) : Step :=
  ((busProbe s).andThen fun st s => .ok [connectedByte (st == .ack)] s).finish

/-- DEVRESET (R60). -/
def execDevreset (s : State) : Step :=
  ((checkedWrite Config.cmdReset s).andThen fun _ s => .ok [] s).finish

end Sys2Proof.Machine
end

