-- ==== Sys2Proof/Machine/CoefficientStore.lean ====
section
/-! DEFINITION. The operations on the coefficient store: LOAD, CRCCHK and READPROM (41_coefficient_store.md). -/

namespace Sys2Proof.Machine

/-- LOAD (R68). -/
def execLoad (s : State) : Step := ((ensureLoaded s).andThen fun _ s => .ok [] s).finish

/-- CRCCHK (R69). -/
def execCrcchk (t : Table) (s : State) : Step := (Res.ok [crcByte (crc4 t) (crcOk t)] s).finish

/-- READPROM (R70). -/
def execReadprom (slot : BitVec 3) (s : State) : Step :=
  ((readStore s).andThen fun t s => .ok (bytes16 (slotOf t slot)) s).finish

end Sys2Proof.Machine
end

