-- ==== Sys2Proof/Machine/Pipeline.lean ====
section
/-! DEFINITION. The compensation function (R73 to R83) on exact integers, and the same pipeline evaluated in 64-bit two's
complement (R84). -/

namespace Sys2Proof.Machine

/-- `a >> k`, the arithmetic right shift: `floor(a / 2^k)` (R7). -/
def asr (a : Int) (k : Nat) : Int := a / 2 ^ k

/-- Step 1 (R74): the temperature difference. -/
def pipeDT (d2 : RawCount) (c5 : Word) : Int := d2.toNat - (c5.toNat : Int) * 256

/-- Step 2 (R75): the first-order temperature. -/
def pipeTemp (dT : Int) (c6 : Word) : Int := 2000 + asr (dT * c6.toNat) 23

/-- Step 3 (R76, R78): the temperature correction. -/
def pipeT2 (dT temp : Int) : Int :=
  if temp < 2000 then asr (3 * dT * dT) 33 else asr (5 * dT * dT) 38

/-- Step 3 (R76 to R78): the offset correction. -/
def pipeOff2 (temp : Int) : Int :=
  if temp < 2000 then
    61 * (temp - 2000) ^ 2 / 16 + (if temp < -1500 then 17 * (temp + 1500) ^ 2 else 0)
  else 0

/-- Step 3 (R76 to R78): the sensitivity correction. -/
def pipeSens2 (temp : Int) : Int :=
  if temp < 2000 then
    29 * (temp - 2000) ^ 2 / 16 + (if temp < -1500 then 9 * (temp + 1500) ^ 2 else 0)
  else 0

/-- Step 4 (R79): the offset at the actual temperature. -/
def pipeOff (c2 c4 : Word) (dT off2 : Int) : Int := c2.toNat * 2 ^ 17 + asr (c4.toNat * dT) 6 - off2

/-- Step 5 (R80): the sensitivity at the actual temperature. -/
def pipeSens (c1 c3 : Word) (dT sens2 : Int) : Int := c1.toNat * 2 ^ 16 + asr (c3.toNat * dT) 7 - sens2

/-- Step 6 (R81): the compensated pressure. -/
def pipeP (d1 : RawCount) (off sens : Int) : Int := asr (asr (d1.toNat * sens) 21 - off) 15

/-- The values of one evaluation of the pipeline, by the spec's names (R9). -/
structure PipeValues where
  dT : Int
  temp : Int
  t2 : Int
  off2 : Int
  sens2 : Int
  off : Int
  sens : Int
  p : Int
  tout : Int
deriving DecidableEq, Repr

/-- Every value of the pipeline (R83), C1 to C6 being slots 1 to 6 of the table (R15, R73). -/
def pipeline (d2 d1 : RawCount) (t : Table) : PipeValues :=
  let dT := pipeDT d2 t[5]
  let temp := pipeTemp dT t[6]
  let t2 := pipeT2 dT temp
  let off2 := pipeOff2 temp
  let sens2 := pipeSens2 temp
  let off := pipeOff t[2] t[4] dT off2
  let sens := pipeSens t[1] t[3] dT sens2
  { dT := dT, temp := temp, t2 := t2, off2 := off2, sens2 := sens2, off := off, sens := sens,
    p := pipeP d1 off sens, tout := temp - t2 }

/-- `compensate` (R73, R82, R83): the outputs TOUT and P. -/
def compensate (d2 d1 : RawCount) (t : Table) : Int × Int :=
  ((pipeline d2 d1 t).tout, (pipeline d2 d1 t).p)

/-- The same pipeline in signed 64-bit two's complement with arithmetic shifts (R84): the evaluation the source asks for. The
meanings use `compensate`; this one is for the statement that the two agree. -/
def compensate64 (d2 d1 : RawCount) (t : Table) : BitVec 64 × BitVec 64 :=
  let c1 := t[1].setWidth 64
  let c2 := t[2].setWidth 64
  let c3 := t[3].setWidth 64
  let c4 := t[4].setWidth 64
  let c6 := t[6].setWidth 64
  let dT := d2.setWidth 64 - (t[5].setWidth 64 <<< 8)
  let temp := 2000#64 + (dT * c6).sshiftRight 23
  let low := temp.slt 2000#64
  let dLow := temp - 2000#64
  let very := temp.slt (-1500#64)
  let dVery := temp + 1500#64
  let t2 := if low then (3#64 * dT * dT).sshiftRight 33 else (5#64 * dT * dT).sshiftRight 38
  let off2 :=
    if low then (61#64 * (dLow * dLow)).sshiftRight 4 + (if very then 17#64 * (dVery * dVery) else 0#64)
    else 0#64
  let sens2 :=
    if low then (29#64 * (dLow * dLow)).sshiftRight 4 + (if very then 9#64 * (dVery * dVery) else 0#64)
    else 0#64
  let off := (c2 <<< 17) + (c4 * dT).sshiftRight 6 - off2
  let sens := (c1 <<< 16) + (c3 * dT).sshiftRight 7 - sens2
  let p := (((d1.setWidth 64 * sens).sshiftRight 21) - off).sshiftRight 15
  (temp - t2, p)

end Sys2Proof.Machine
end

