-- ==== Sys2Proof/Machine/Compensation.lean ====
section
/-! DEFINITION. The operation COMP (42_compensation.md). -/

namespace Sys2Proof.Machine

/-- COMP (R86). -/
def execComp (d2 d1 : RawCount) (s : State) : Step :=
  ((readStore s).andThen fun t s => .ok (outputBytes (compensate d2 d1 t)) s).finish

end Sys2Proof.Machine
end

