-- ==== Sys2Proof/Machine/Measurement.lean ====
section
/-! DEFINITION. The resolution and the measurement sequence: SETRES and READTP (43_measurement.md). -/

namespace Sys2Proof.Machine

/-- SETRES (R88). Codes 6 and 7 are refused (R45). -/
def execSetres (code : BitVec 3) (s : State) : Step :=
  if code.toNat ≤ 5 then (Res.ok [] (s.setOsr code)).finish else .refused .reservedResolution

/-- READTP (R91). -/
def execReadtp (s : State) : Step :=
  ((ensureLoaded s).andThen fun _ s =>
   (convert Config.convBaseT s).andThen fun d2 s =>
   (convert Config.convBaseP s).andThen fun d1 s =>
   (zeroGuard d2 d1 s).andThen fun _ s =>
   (readStore s).andThen fun t s =>
   .ok (outputBytes (compensate d2 d1 t)) s).finish

end Sys2Proof.Machine
end

