-- ==== Sys2Proof/Machine/Dispatch.lean ====
section
/-! DEFINITION. The meaning of each instruction, one arm per constructor. -/

namespace Sys2Proof.Machine

def exec (i : Instr) (s : State) : Host.Outcome State Fault Refusal :=
  match i with
  | .init => Sys2Proof.Machine.execInit s
  | .probe => Sys2Proof.Machine.execProbe s
  | .devreset => Sys2Proof.Machine.execDevreset s
  | .setres code => Sys2Proof.Machine.execSetres code s
  | .load => Sys2Proof.Machine.execLoad s
  | .crcchk table => Sys2Proof.Machine.execCrcchk table s
  | .comp d2 d1 => Sys2Proof.Machine.execComp d2 d1 s
  | .readtp => Sys2Proof.Machine.execReadtp s
  | .readprom slot => Sys2Proof.Machine.execReadprom slot s

end Sys2Proof.Machine
end

