-- ==== Sys2Proof/Machine/Fetch.lean ====
section
/-! DEFINITION. Taking the next host input: a request off the byte stream (R37), or a block reset (R107). -/

namespace Sys2Proof.Machine

/-- The request bytes before the next block reset. -/
def leadingBytes : List HostInput → List Byte
  | .byte b :: rest => b :: leadingBytes rest
  | .blockReset :: _ => []
  | [] => []

/-- The inputs from the next block reset on. -/
def fromReset : List HostInput → List HostInput
  | .byte _ :: rest => fromReset rest
  | .blockReset :: rest => .blockReset :: rest
  | [] => []

/-- What the block does next. -/
inductive Fetch where
  /-- No complete request has been issued: the block is idle (R108). -/
  | idle
  /-- The host resets the block; the inputs after it. -/
  | reset (rest : List HostInput)
  /-- A request; the inputs after its bytes. -/
  | request (i : Instr) (rest : List HostInput)
  /-- A reserved encoding (R45). -/
  | reserved (why : Refusal)
deriving DecidableEq, Repr

/-- A block reset, if one is next, discards an unfinished request (log 7); else the block waits. -/
def fetchReset : List HostInput → Fetch
  | .blockReset :: rest => .reset rest
  | .byte _ :: _ => .idle
  | [] => .idle

/-- The next request, or the next block reset. -/
def fetch (inputs : List HostInput) : Fetch :=
  match decode (leadingBytes inputs) with
  | .instr i rest => .request i (inputs.drop ((leadingBytes inputs).length - rest.length))
  | .rejected .truncated => fetchReset (fromReset inputs)
  | .rejected .reservedOp => .reserved .reservedOp
  | .rejected .zBitSet => .reserved .zBitSet
  | .rejected .nonzeroCode => .reserved .nonzeroCode
  | .rejected .reservedResolution => .reserved .reservedResolution

/-- The request bytes of a table row at the head of the inputs. -/
def putBytes (bytes : List Byte) (inputs : List HostInput) : List HostInput :=
  bytes.map HostInput.byte ++ inputs

end Sys2Proof.Machine
end

