-- ==== Sys2Proof/Machine/Step.lean ====
section
/-! DEFINITION. One step: one host request from request to response (R2, D1), or one block reset (R107), or no input yet. -/

namespace Sys2Proof.Machine

/-- One step of the block. With no complete request issued, the block is idle and nothing changes (R108, log 1). -/
def step (s : State) : Host.Outcome State Fault Refusal :=
  match fetch s.inputs with
  | .idle => .next s
  | .reset rest => .next (s.blockReset.withInputs rest)
  | .request i rest => exec i (s.withInputs rest)
  | .reserved why => .refused why

/-- The state with the request of an opcode-table row put in front of the pending inputs, so that `step` takes exactly it. -/
def State.withFetchWord (s : State) (nbits w : Nat) : State :=
  s.withInputs (putBytes (tableBytes nbits w) s.inputs)

end Sys2Proof.Machine
end

