-- ==== Sys2Proof/Machine/Assembler.lean ====
section
/-! DEFINITION. The assembler syntax of R50, from the characters of one line to an instruction. R50 does not say how blanks may
stand in a line: log 10. -/

namespace Sys2Proof.Machine

/-- A blank. -/
def isBlank (c : Char) : Bool := c == ' ' || c == '\t'

/-- A line without the blanks around it. -/
def trimBlanks (cs : List Char) : List Char :=
  ((cs.dropWhile isBlank).reverse.dropWhile isBlank).reverse

/-- The value of a digit in a base up to 16. -/
def digitValue (base : Nat) (c : Char) : Option Nat :=
  let v :=
    if 48 ≤ c.toNat ∧ c.toNat ≤ 57 then c.toNat - 48
    else if 65 ≤ c.toNat ∧ c.toNat ≤ 70 then c.toNat - 55
    else if 97 ≤ c.toNat ∧ c.toNat ≤ 102 then c.toNat - 87
    else base
  if v < base then some v else none

/-- The value of a row of digits, most significant first, after digits of value `acc`. -/
def digitsValue (base : Nat) : Nat → List Char → Option Nat
  | acc, [] => some acc
  | acc, c :: cs =>
    match digitValue base c with
    | some v => digitsValue base (acc * base + v) cs
    | none => none

/-- A number: hex after `0x`, else decimal (R50). -/
def parseNumber : List Char → Option Nat
  | [] => none
  | '0' :: 'x' :: [] => none
  | '0' :: 'x' :: c :: cs => digitsValue 16 0 (c :: cs)
  | c :: cs => digitsValue 10 0 (c :: cs)

/-- The pieces of a text between its commas. -/
def splitCommas : List Char → List (List Char)
  | [] => [[]]
  | ',' :: cs => [] :: splitCommas cs
  | c :: cs =>
    match splitCommas cs with
    | piece :: pieces => (c :: piece) :: pieces
    | [] => [[c]]

/-- All the pieces as numbers. -/
def parsePieces : List (List Char) → Option (List Nat)
  | [] => some []
  | piece :: pieces =>
    match parseNumber (trimBlanks piece), parsePieces pieces with
    | some n, some ns => some (n :: ns)
    | some _, none => none
    | none, _ => none

/-- The operands after the mnemonic: none, or numbers with commas between them. -/
def parseOperands (cs : List Char) : Option (List Nat) :=
  if trimBlanks cs = [] then some [] else parsePieces (splitCommas cs)

/-- An operation without operands (R50). -/
def asmPlain (i : Instr) : List Nat → Option Instr
  | [] => some i
  | _ :: _ => none

/-- `SETRES osr` (R50). -/
def asmSetres : List Nat → Option Instr
  | [rate] => (resolutionCode rate).map Instr.setres
  | _ => none

/-- `READPROM i` (R50). -/
def asmReadprom : List Nat → Option Instr
  | [i] => if i ≤ 7 then some (.readprom (BitVec.ofNat 3 i)) else none
  | _ => none

/-- `CRCCHK w0, …, w7` (R50). -/
def asmCrcchk : List Nat → Option Instr
  | [w0, w1, w2, w3, w4, w5, w6, w7] =>
    if [w0, w1, w2, w3, w4, w5, w6, w7].all (fun w => decide (w < 2 ^ 16)) then
      some (.crcchk #v[BitVec.ofNat 16 w0, BitVec.ofNat 16 w1, BitVec.ofNat 16 w2, BitVec.ofNat 16 w3,
                       BitVec.ofNat 16 w4, BitVec.ofNat 16 w5, BitVec.ofNat 16 w6, BitVec.ofNat 16 w7])
    else none
  | _ => none

/-- `COMP d2, d1` (R50). -/
def asmComp : List Nat → Option Instr
  | [d2, d1] =>
    if d2 < 2 ^ 24 ∧ d1 < 2 ^ 24 then some (.comp (BitVec.ofNat 24 d2) (BitVec.ofNat 24 d1)) else none
  | _ => none

/-- A mnemonic, in capitals, with its operands. -/
def asmInstr (mnemonic : List Char) (operands : List Nat) : Option Instr :=
  if mnemonic = ['I', 'N', 'I', 'T'] then asmPlain .init operands
  else if mnemonic = ['P', 'R', 'O', 'B', 'E'] then asmPlain .probe operands
  else if mnemonic = ['D', 'E', 'V', 'R', 'E', 'S', 'E', 'T'] then asmPlain .devreset operands
  else if mnemonic = ['S', 'E', 'T', 'R', 'E', 'S'] then asmSetres operands
  else if mnemonic = ['L', 'O', 'A', 'D'] then asmPlain .load operands
  else if mnemonic = ['C', 'R', 'C', 'C', 'H', 'K'] then asmCrcchk operands
  else if mnemonic = ['C', 'O', 'M', 'P'] then asmComp operands
  else if mnemonic = ['R', 'E', 'A', 'D', 'T', 'P'] then asmPlain .readtp operands
  else if mnemonic = ['R', 'E', 'A', 'D', 'P', 'R', 'O', 'M'] then asmReadprom operands
  else none

/-- One line of assembler (R50): the mnemonic, in small or capital letters, then its operands. -/
def assemble (line : List Char) : Option Instr :=
  let text := trimBlanks line
  match parseOperands (text.dropWhile fun c => !isBlank c) with
  | some operands => asmInstr ((text.takeWhile fun c => !isBlank c).map Char.toUpper) operands
  | none => none

end Sys2Proof.Machine
end

