-- ==== Sys2Proof/Safety.lean ====
section
/-! DEFINITION. The terms claims use: the oracle's answers by position, the events of a fetch and of a conversion, and the
invariant of the machine. -/

namespace Sys2Proof.Machine

/-! ### The answers to come -/

/-- The oracle's answer to the `k`-th exchange from now, counted from 0. -/
def State.answerAt (s : State) (k : Nat) : Answer := s.script.getD k s.afterScript

/-- The state after `k` exchanges were answered and the events `es` recorded, and nothing else was done. -/
def State.after (s : State) (k : Nat) (es : List Event) : State :=
  { s with script := s.script.drop k, trace := s.trace ++ es }

/-- The `k`-th exchange from now is acknowledged. -/
def State.ackAt (s : State) (k : Nat) : Prop := ∃ bytes, s.answerAt k = .answered .ack bytes

/-- The oracle acknowledges a fetch of all 8 words and delivers the table `t` (R61, R68): the even exchanges are the writes, the
odd ones the reads, each of the two bytes of a word, most significant first (R27). -/
def State.delivers (s : State) (t : Table) : Prop :=
  ∀ slot : BitVec 3, s.ackAt (2 * slot.toNat) ∧
    s.answerAt (2 * slot.toNat + 1) = .answered .ack (bytes16 (slotOf t slot))

/-- The oracle acknowledges the three exchanges of a conversion from the `k`-th on, and delivers the count `d` (R28, R90). -/
def State.deliversCount (s : State) (k : Nat) (d : RawCount) : Prop :=
  s.ackAt k ∧ s.ackAt (k + 1) ∧ s.answerAt (k + 2) = .answered .ack (bytes24 d)

/-- The two events of a word fetched from a slot (R61). -/
def wordEvents (t : Table) (slot : BitVec 3) : List Event :=
  [.write (promCommand slot) .ack, .read 2 .ack (bytes16 (slotOf t slot))]

/-- The 16 events of a full fetch (R68). -/
def fetchEvents (t : Table) : List Event := allSlots.flatMap (wordEvents t)

/-- The 4 events of a conversion (R90). -/
def convEvents (code : BitVec 3) (base : Byte) (d : RawCount) : List Event :=
  [.write (convCommand code base) .ack, .wait (Config.convWaitMs code), .write 0x00#8 .ack,
   .read 3 .ack (bytes24 d)]

/-- The 8 events of READTP's two conversions (R91). -/
def measureEvents (code : BitVec 3) (d2 d1 : RawCount) : List Event :=
  convEvents code Config.convBaseT d2 ++ convEvents code Config.convBaseP d1

/-! ### The invariant -/

/-- The command bytes the block sends (R49). -/
def isCommand (b : Byte) : Prop :=
  (∃ slot : BitVec 3, b = promCommand slot) ∨
  (∃ code : BitVec 3, code.toNat ≤ 5 ∧
    (b = convCommand code Config.convBaseT ∨ b = convCommand code Config.convBaseP)) ∨
  b = 0x00#8 ∨ b = Config.cmdReset

/-- An event the rules can make: a write is of a command byte (R49), a read is of 2 or 3 bytes and delivers that many when it is
acknowledged (R31, R53), a wait is a resolution's (R90). -/
def Event.lawful : Event → Prop
  | .write b _ => isCommand b
  | .read n st bytes => (n = 2 ∨ n = 3) ∧ (st = .ack → bytes.length = n)
  | .probe _ => True
  | .wait ms => ∃ code : BitVec 3, code.toNat ≤ 5 ∧ ms = Config.convWaitMs code
  | .ini => True

/-- The invariant of the machine. -/
structure State.Inv (s : State) : Prop where
  /-- `VALID = 0 ⇔ PROM is unset` (R17). -/
  valid_iff : s.valid = s.prom.isSome
  /-- A stored table has a matching CRC (R17, R68). -/
  crc : ∀ t, s.prom = some t → crcOk t = true
  /-- Codes 6 and 7 are never held (R18). -/
  osr : s.osr.toNat ≤ 5
  /-- Every recorded event is one the rules can make. -/
  events : ∀ e ∈ s.trace, e.lawful

/-! ### Words of single statements -/

/-- The CRC4 of the all-zero table with one bit set, for the bits 0 to 15 of slots 0 to 6, as the spec's vectors list it
(95_test_vectors.md section 4.2). -/
def crcBasis : List (List Nat) :=
  [[8, 3, 6, 12, 11, 5, 10, 7, 14, 15, 13, 9, 0, 0, 0, 0],
   [4, 8, 3, 6, 12, 11, 5, 10, 7, 14, 15, 13, 9, 1, 2, 4],
   [2, 4, 8, 3, 6, 12, 11, 5, 10, 7, 14, 15, 13, 9, 1, 2],
   [1, 2, 4, 8, 3, 6, 12, 11, 5, 10, 7, 14, 15, 13, 9, 1],
   [9, 1, 2, 4, 8, 3, 6, 12, 11, 5, 10, 7, 14, 15, 13, 9],
   [13, 9, 1, 2, 4, 8, 3, 6, 12, 11, 5, 10, 7, 14, 15, 13],
   [15, 13, 9, 1, 2, 4, 8, 3, 6, 12, 11, 5, 10, 7, 14, 15]]

/-- The XOR of the entries of the set bits of a table's slots, slot 0 first. -/
def crcBySetBits (words : List Word) : Nat :=
  (List.zipWith (fun (w : Word) (entries : List Nat) =>
    (entries.zipIdx.map fun e => if w.getLsbD e.2 then e.1 else 0).foldl (· ^^^ ·) 0) words crcBasis).foldl (· ^^^ ·) 0

/-- `q = floor(a / 2^k)`, without a division (R7). -/
def isFloorShift (a : Int) (k : Nat) (q : Int) : Prop := q * 2 ^ k ≤ a ∧ a < (q + 1) * 2 ^ k

/-- The event of LOAD's `n`-th exchange when it is answered with a status and bytes: a write when `n` is even, else a read. -/
def loadEvent (n : Nat) (st : BusStatus) (bytes : List Byte) : Event :=
  if n % 2 = 0 then .write (promCommand (BitVec.ofNat 3 (n / 2))) st else .read 2 (readStatus 2 st bytes) bytes

/-- The status LOAD's `n`-th exchange counts as (R53). -/
def loadStatus (n : Nat) (st : BusStatus) (bytes : List Byte) : BusStatus :=
  if n % 2 = 0 then st else readStatus 2 st bytes

/-- Is READTP's `k`-th exchange of six a read? They are: start, select, read, twice (R90). -/
def measureIsRead (k : Nat) : Bool := k % 3 == 2

/-- The status READTP's `k`-th exchange counts as (R53). -/
def measureStatus (k : Nat) (st : BusStatus) (bytes : List Byte) : BusStatus :=
  if measureIsRead k then readStatus 3 st bytes else st

/-- The events of READTP's `k`-th exchange answered with a status and bytes: the wait stands before each select. -/
def measureEventsAt (code : BitVec 3) (k : Nat) (st : BusStatus) (bytes : List Byte) : List Event :=
  match k with
  | 0 => [.write (convCommand code Config.convBaseT) st]
  | 3 => [.write (convCommand code Config.convBaseP) st]
  | 1 => [.wait (Config.convWaitMs code), .write 0x00#8 st]
  | 4 => [.wait (Config.convWaitMs code), .write 0x00#8 st]
  | _ => [.read 3 (readStatus 3 st bytes) bytes]

/-! ### The exchanges an operation makes -/

/-- The exchanges of a full fetch (R61, R68): for each slot in order, the address write and the read of a word. -/
def fetchExchanges : List ExchangeKind := allSlots.flatMap fun slot => [.write (promCommand slot), .read 2]

/-- The exchanges of READTP's two conversions (R90, R91): start, select, read, temperature first. -/
def measureExchanges (code : BitVec 3) : List ExchangeKind :=
  [Config.convBaseT, Config.convBaseP].flatMap fun base => [.write (convCommand code base), .write 0x00#8, .read 3]

/-- The exchanges an operation makes from a state while each is answered well, in order (R58 to R60, R68, R91). -/
def exchangesOf (i : Instr) (s : State) : List ExchangeKind :=
  match i with
  | .init => []
  | .probe => [.probe]
  | .devreset => [.write Config.cmdReset]
  | .setres _ => []
  | .load => if s.valid then [] else fetchExchanges
  | .crcchk _ => []
  | .comp _ _ => []
  | .readtp => (if s.valid then [] else fetchExchanges) ++ measureExchanges s.osr
  | .readprom _ => []

/-- The status an exchange counts as (R52 to R54). -/
def exchangeStatus (kind : ExchangeKind) (st : BusStatus) (bytes : List Byte) : BusStatus :=
  match kind with
  | .write _ => st
  | .read n => readStatus n st bytes
  | .probe => st

/-- The answer ends the exchange and counts as ACK. -/
def ExchangeKind.goesOn (kind : ExchangeKind) : Answer → Prop
  | .answered st bytes => exchangeStatus kind st bytes = .ack
  | .never => False

/-- The next exchanges, one after the other, are all answered well. -/
def State.answersWell (s : State) (kinds : List ExchangeKind) : Prop :=
  ∀ (j : Nat) (kind : ExchangeKind), kinds[j]? = some kind → kind.goesOn (s.answerAt j)

/-- The operation reaches its `k`-th exchange, counted from 0, and the oracle never answers that one (R98(a)). READTP from an
empty cache reaches the exchanges after the fetch only if the fetched table's CRC matches (R68, R91). -/
structure State.StuckAt (s : State) (i : Instr) (k : Nat) (kind : ExchangeKind) : Prop where
  /-- The `k`-th exchange of the operation is of this kind. -/
  made : (exchangesOf i s)[k]? = some kind
  /-- The exchanges before it go on. -/
  before : s.answersWell ((exchangesOf i s).take k)
  /-- A conversion is reached only with validated coefficients. -/
  loaded : i = .readtp → s.valid = false → 16 ≤ k → ∃ t, s.delivers t ∧ crcOk t = true
  /-- It is never answered. -/
  never : s.answerAt k = .never

/-! ### The assembler's forms -/

/-- The nine forms of R50: the mnemonic, the operands as numbers, and the operation they stand for. -/
inductive AsmForm : String → List Nat → Instr → Prop where
  | init : AsmForm "INIT" [] .init
  | probe : AsmForm "PROBE" [] .probe
  | devreset : AsmForm "DEVRESET" [] .devreset
  | setres (code : BitVec 3) (wf : code.toNat ≤ 5) : AsmForm "SETRES" [256 * 2 ^ code.toNat] (.setres code)
  | load : AsmForm "LOAD" [] .load
  | crcchk (t : Table) : AsmForm "CRCCHK" (t.toList.map BitVec.toNat) (.crcchk t)
  | comp (d2 d1 : RawCount) : AsmForm "COMP" [d2.toNat, d1.toNat] (.comp d2 d1)
  | readtp : AsmForm "READTP" [] .readtp
  | readprom (slot : BitVec 3) : AsmForm "READPROM" [slot.toNat] (.readprom slot)

/-! ### Which instruction -/

/-- The operations that observe `PROM` and fault while it is unset (R96). -/
def readsStore : Instr → Bool
  | .init => false
  | .probe => false
  | .devreset => false
  | .setres _ => false
  | .load => false
  | .crcchk _ => false
  | .comp _ _ => true
  | .readtp => false
  | .readprom _ => true

/-- The operations that may commit a fetched table (R20). -/
def mayLoad : Instr → Bool
  | .init => false
  | .probe => false
  | .devreset => false
  | .setres _ => false
  | .load => true
  | .crcchk _ => false
  | .comp _ _ => false
  | .readtp => true
  | .readprom _ => false

/-- The operations that make a bus exchange (R58 to R60, R68, R91). -/
def usesBus : Instr → Bool
  | .init => false
  | .probe => true
  | .devreset => true
  | .setres _ => false
  | .load => true
  | .crcchk _ => false
  | .comp _ _ => false
  | .readtp => true
  | .readprom _ => false

/-- How many data bytes follow a status OK (R48). -/
def dataLength : Instr → Nat
  | .init => 0
  | .probe => 1
  | .devreset => 0
  | .setres _ => 0
  | .load => 0
  | .crcchk _ => 1
  | .comp _ _ => 8
  | .readtp => 8
  | .readprom _ => 2

end Sys2Proof.Machine
end

