-- ==== Sys2Proof/Certificates/Slice0/Obligations.lean ====
section
/-! DEFINITION. The statements about the block, for the provers. Each docstring names the rule it formalises. -/

open Sys2Proof Sys2Proof.Machine

/-! ### Reset -/

/-- R23: what reset leaves. `OSR_RESET` is the spec's open parameter (log 4). -/
def Obligations.ResetLeavesStoreUnsetAndTraceEmpty : Prop :=
  State.reset.valid = false ∧ State.reset.prom = none ∧ State.reset.osr = Config.osrReset ∧
  Config.osrReset.toNat ≤ 5 ∧ State.reset.trace = []

/-- R107: a block reset sets every part of the block's state, issues no bus event, takes no answer of the oracle, and is the
only thing that takes `VALID` from 1 to 0. The last clause says that DEVRESET is not it. -/
def Obligations.BlockResetClearsTheBlock : Prop :=
  (∀ (s : State) (rest : List HostInput), s.inputs = .blockReset :: rest →
    step s = .next { s with prom := none, valid := false, osr := Config.osrReset, trace := [], inputs := rest }) ∧
  (∀ s t : State, step s = .next t → s.valid = true → t.valid = false →
    ∃ rest, fetch s.inputs = .reset rest ∧ t = s.blockReset.withInputs rest) ∧
  (∀ s t : State, exec .devreset s = .next t → t.valid = s.valid ∧ t.prom = s.prom)

/-- The model's choice (log 7): a block reset discards the bytes of a request that is not complete. -/
def Obligations.BlockResetDiscardsAnUnfinishedRequest : Prop :=
  ∀ (s : State) (sent : List Byte) (rest : List HostInput),
    decode sent = .rejected .truncated → s.inputs = sent.map .byte ++ .blockReset :: rest →
    step s = .next { s with prom := none, valid := false, osr := Config.osrReset, trace := [], inputs := rest }

/-- The model's choice (log 1): with no complete request and no reset issued the block is idle, and nothing changes. -/
def Obligations.IdleBlockWaits : Prop :=
  ∀ (s : State) (sent : List Byte),
    decode sent = .rejected .truncated → s.inputs = sent.map .byte → step s = .next s

/-! ### Encoding -/

/-- A word of each operation, written out from the header table of R39 and the payloads of R42 and R43. -/
def Obligations.WrittenOutRequestsDecode : Prop :=
  decode [0b00010000#8] = .instr .init [] ∧
  decode [0b00100000#8] = .instr .probe [] ∧
  decode [0b00110000#8] = .instr .devreset [] ∧
  decode [0b01000100#8] = .instr (.setres 4) [] ∧
  decode [0b01010000#8] = .instr .load [] ∧
  decode [0x60, 0x80, 0x00, 0xB5, 0x24, 0xAB, 0xCD, 0x71, 0x83, 0x6C, 0xC2, 0x7B, 0x41, 0x6E, 0x05, 0x00, 0x00] =
    .instr (.crcchk #v[0x8000, 0xB524, 0xABCD, 0x7183, 0x6CC2, 0x7B41, 0x6E05, 0x0000]) [] ∧
  decode [0b01110000#8, 0x7B, 0x41, 0x44, 0x62, 0xA7, 0xA4] = .instr (.comp 8077636 6465444) [] ∧
  decode [0b10000000#8] = .instr .readtp [] ∧
  decode [0b10010111#8] = .instr (.readprom 7) []

/-- Decode and encode agree on every well-formed instruction, whatever follows it in the stream (R37 to R43). -/
def Obligations.DecodeOfEncodeIsTheInstruction : Prop :=
  ∀ (i : Instr) (rest : List Byte), WellFormed i → decode (encode i ++ rest) = .instr i rest

/-- The other direction: bytes that decode are the encoding of what they decode to, so no two encodings share a meaning. -/
def Obligations.DecodedBytesAreTheEncoding : Prop :=
  ∀ (bytes rest : List Byte) (i : Instr), decode bytes = .instr i rest →
    WellFormed i ∧ bytes = encode i ++ rest

/-- R38, R44, R45: which header bytes are reserved, in arithmetic on the byte: `op` is `h / 16`, `z` is bit 3, `k` is `h % 8`. A
request is refused exactly when its header is one of them. A refusal has no next state, so nothing changes. -/
def Obligations.ReservedHeadersAreRefused : Prop :=
  ∀ (s : State) (h : Byte) (more : List HostInput), s.inputs = .byte h :: more →
    ((∃ why, step s = .refused why) ↔
      (h.toNat / 16 = 0 ∨ 10 ≤ h.toNat / 16) ∨
      (h.toNat / 16 = 4 ∧ 6 ≤ h.toNat % 8) ∨
      h.toNat / 8 % 2 = 1 ∨
      (h.toNat / 16 ≠ 4 ∧ h.toNat / 16 ≠ 9 ∧ h.toNat % 8 ≠ 0))

/-- When the bytes at the head of the input decode to an instruction and are all of it, the step is that instruction's meaning,
with those bytes taken off the input, and nothing else around it. -/
def Obligations.StepRunsTheDecodedRequest : Prop :=
  ∀ (s : State) (bytes : List Byte) (i : Instr) (rest : List HostInput),
    decode bytes = .instr i [] → s.inputs = bytes.map .byte ++ rest →
    step s = exec i { s with inputs := rest }

/-- A row of the opcode table placed at the head of the input is the instruction the next step runs. -/
def Obligations.PlacedTableWordIsRunNext : Prop :=
  ∀ (s : State) (nbits w : Nat) (i : Instr), decodeTableWord nbits w = some i →
    step (s.withFetchWord nbits w) = exec i s

/-- R27, R28: transfers are most significant byte first. -/
def Obligations.TransfersAreMostSignificantByteFirst : Prop :=
  (∀ b0 b1 : Byte, (wordOfBytes [b0, b1]).toNat = b0.toNat * 2 ^ 8 + b1.toNat) ∧
  (∀ b0 b1 b2 : Byte, (countOfBytes [b0, b1, b2]).toNat = b0.toNat * 2 ^ 16 + b1.toNat * 2 ^ 8 + b2.toNat) ∧
  (∀ w : Word, wordOfBytes (bytes16 w) = w) ∧ (∀ d : RawCount, countOfBytes (bytes24 d) = d)

/-- R49: the command bytes. The PROM addresses do not wrap (R5), are two apart and start at PROM_BASE; a conversion command has the
bits of its base, with the resolution code merged by OR into bits 3:1. -/
def Obligations.CommandBytesFollowTheFormulas : Prop :=
  (∀ slot : BitVec 3, (promCommand slot).toNat = Config.promBase.toNat + 2 * slot.toNat ∧
    (promCommand slot).toNat ≤ 0xFF) ∧
  (∀ (code : BitVec 3) (base : Byte) (j : Nat), j < 8 →
    (convCommand code base).getLsbD j =
      (base.getLsbD j || (decide (1 ≤ j) && decide (j ≤ 3) && code.getLsbD (j - 1))))

/-- R18, R40, R50: the codes 0 to 5 and their rates, `256 * 2^c`. -/
def Obligations.ResolutionCodesNameTheSixRates : Prop :=
  ∀ (rate : Nat) (code : BitVec 3),
    resolutionCode rate = some code ↔ code.toNat ≤ 5 ∧ rate = 256 * 2 ^ code.toNat

/-- R50: every line that assembles is a well-formed request, so it is encoded and decoded back. -/
def Obligations.AssembledLinesAreWellFormed : Prop :=
  ∀ (line : List Char) (i : Instr), assemble line = some i →
    WellFormed i ∧ decode (encode i) = .instr i []

/-! ### The thin operations -/

/-- R58. -/
def Obligations.InitRecordsIniOnly : Prop :=
  decode [0x10#8] = .instr .init [] ∧
  ∀ s : State, exec .init s =
    .next { s with trace := s.trace ++ [.ini], responses := s.responses ++ [⟨if s.valid then 0x04 else 0x00, []⟩] }

/-- R59: the response says whether the answer was ACK; NACK and ERR are no error. -/
def Obligations.ProbeReportsTheAcknowledge : Prop :=
  decode [0x20#8] = .instr .probe [] ∧
  ∀ (s : State) (st : BusStatus) (bytes : List Byte), s.answerAt 0 = .answered st bytes →
    exec .probe s = .next { s with
      script := s.script.tail, trace := s.trace ++ [.probe st],
      responses := s.responses ++ [⟨if s.valid then 0x04 else 0x00, [if st = .ack then 0x01 else 0x00]⟩] }

/-- R60. -/
def Obligations.DevresetSendsTheResetCommand : Prop :=
  decode [0x30#8] = .instr .devreset [] ∧
  ∀ (s : State) (st : BusStatus) (bytes : List Byte), s.answerAt 0 = .answered st bytes →
    exec .devreset s = .next { s with
      script := s.script.tail, trace := s.trace ++ [.write Config.cmdReset st],
      responses := s.responses ++
        [⟨match st with
          | .ack => if s.valid then 0x04 else 0x00
          | .nack => if s.valid then 0x05 else 0x01
          | .err => if s.valid then 0x06 else 0x02, []⟩] }

/-- R98(a): an operation is stuck on the first of its exchanges that is never completed, whichever it is, addressed to DEV_ADDR.
First the operations' first exchanges, written out; then any exchange `k` of any operation that reaches it. That being stuck is
a fault of the model is log 3. -/
def Obligations.UnansweredExchangeIsStuck : Prop :=
  (∀ s : State, s.answerAt 0 = .never →
    exec .probe s = .fault (.busNeverCompletes ⟨Config.devAddr, .probe⟩) ∧
    exec .devreset s = .fault (.busNeverCompletes ⟨Config.devAddr, .write Config.cmdReset⟩) ∧
    (s.valid = false →
      exec .load s = .fault (.busNeverCompletes ⟨Config.devAddr, .write Config.promBase⟩) ∧
      exec .readtp s = .fault (.busNeverCompletes ⟨Config.devAddr, .write Config.promBase⟩)) ∧
    (s.valid = true →
      exec .readtp s = .fault (.busNeverCompletes ⟨Config.devAddr, .write (convCommand s.osr Config.convBaseT)⟩))) ∧
  (∀ (i : Instr) (s : State) (k : Nat) (kind : ExchangeKind), s.StuckAt i k kind →
    exec i s = .fault (.busNeverCompletes ⟨Config.devAddr, kind⟩))

/-! ### The CRC -/

/-- R69: the computed nibble in bits 3:0, the match in bit 4, no state written. -/
def Obligations.CrcchkAnswersNibbleAndMatch : Prop :=
  (∀ t : Table, decode (0x60#8 :: t.toList.flatMap bytes16) = .instr (.crcchk t) []) ∧
  ∀ (t : Table) (s : State), ∃ d : Byte,
    exec (.crcchk t) s =
      .next { s with responses := s.responses ++ [⟨if s.valid then 0x04 else 0x00, [d]⟩] } ∧
    d.toNat = (crc4 t).toNat + (if crc4 t = storedCrc t then 16 else 0)

/-- R71(a): CRC4 is linear over GF(2). The spec marks the rule as derived from R62 to R66. -/
def Obligations.CrcIsLinear : Prop :=
  ∀ a b : Table, crc4 (Vector.zipWith (· ^^^ ·) a b) = crc4 a ^^^ crc4 b

/-- The CRC of every table is the XOR of the listed entries of its set bits (95_test_vectors.md section 4.2, from R71(a)): the
whole function, in terms that name no shift and no polynomial. -/
def Obligations.CrcIsTheXorOfTheListedEntries : Prop :=
  ∀ t : Table, (crc4 t).toNat = crcBySetBits t.toList

/-- R71(b) to (e) and conflict C6: of the 128 single-bit flips of a table that passes, exactly those in slots 0 to 6 are detected;
for the 108 bits that are input, the computed nibble itself changes, in every table; for the other 20 it does not. The spec marks
the rule as derived from R62 to R66. -/
def Obligations.CrcDetectsSingleBitFlips : Prop :=
  ∀ (t : Table) (slot : BitVec 3) (bit : Nat), bit < 16 →
    (crc4 (setSlot t slot (slotOf t slot ^^^ (1#16 <<< bit))) ≠ crc4 t ↔
      slot ≠ 7 ∧ ¬ (slot = 0 ∧ 12 ≤ bit)) ∧
    (crcOk t = true →
      (crcOk (setSlot t slot (slotOf t slot ^^^ (1#16 <<< bit))) = true ↔ slot = 7))

/-! ### The coefficient store -/

/-- R61: two exchanges; the read is not issued when the write is not acknowledged; the first error ends the fetch. Cases: both
acknowledged with two bytes; the write answered otherwise; the read counted as otherwise (R53: also when the number of bytes
is not 2). What a failed read records is the model's reading of R53, log 12. -/
def Obligations.ReadWordIsTwoExchanges : Prop :=
  ∀ (slot : BitVec 3) (s : State),
    (∀ b0 b1 : Byte, s.ackAt 0 → s.answerAt 1 = .answered .ack [b0, b1] →
      ∃ w : Word, w.toNat = b0.toNat * 256 + b1.toNat ∧
        readWord slot s = .ok w (s.after 2 [.write (Config.promBase + 2#8 * slot.setWidth 8) .ack,
                                            .read 2 .ack [b0, b1]])) ∧
    (∀ bytes : List Byte,
      (s.answerAt 0 = .answered .nack bytes → readWord slot s =
        .fail .noAcknowledge (s.after 1 [.write (Config.promBase + 2#8 * slot.setWidth 8) .nack])) ∧
      (s.answerAt 0 = .answered .err bytes → readWord slot s =
        .fail .transferError (s.after 1 [.write (Config.promBase + 2#8 * slot.setWidth 8) .err]))) ∧
    (∀ bytes : List Byte, s.ackAt 0 →
      (s.answerAt 1 = .answered .nack bytes → readWord slot s =
        .fail .noAcknowledge (s.after 2 [.write (Config.promBase + 2#8 * slot.setWidth 8) .ack, .read 2 .nack bytes])) ∧
      (s.answerAt 1 = .answered .err bytes → readWord slot s =
        .fail .transferError (s.after 2 [.write (Config.promBase + 2#8 * slot.setWidth 8) .ack, .read 2 .err bytes])) ∧
      (s.answerAt 1 = .answered .ack bytes → bytes.length ≠ 2 → readWord slot s =
        .fail .transferError (s.after 2 [.write (Config.promBase + 2#8 * slot.setWidth 8) .ack, .read 2 .err bytes])))

/-- R68: from an empty cache, when the device acknowledges everything and delivers a table whose CRC matches, LOAD makes the 16
events in slot order and commits all 8 words and VALID. -/
def Obligations.LoadCommitsAFetchedTable : Prop :=
  decode [0x50#8] = .instr .load [] ∧
  ∀ (s : State) (t : Table), s.valid = false → s.delivers t → crcOk t = true →
    exec .load s = .next { s with
      prom := some t, valid := true, script := s.script.drop 16, trace := s.trace ++ fetchEvents t,
      responses := s.responses ++ [⟨0x04, []⟩] }

/-- R68: with VALID = 1 LOAD makes no bus event; a fetched table whose CRC does not match is not kept. -/
def Obligations.LoadKeepsTheCacheAndDropsBadTables : Prop :=
  (∀ s : State, s.valid = true →
    exec .load s = .next { s with responses := s.responses ++ [⟨0x04, []⟩] }) ∧
  (∀ (s : State) (t : Table), s.valid = false → s.delivers t → crcOk t = false →
    exec .load s = .next { s with
      script := s.script.drop 16, trace := s.trace ++ fetchEvents t, responses := s.responses ++ [⟨0x03, []⟩] })

/-- R68, R99: when the exchanges before the `n`-th are answered well and the `n`-th is not, LOAD ends there, with `n + 1` events
(2i+1 for a failed write of slot i, 2i+2 for a failed read), the store and VALID as they were, and that exchange's error. Which
reads count as failed, and as what, is R53; what a failed read records is the model's reading of it, log 12. -/
def Obligations.LoadEndsAtTheFirstFailedExchange : Prop :=
  ∀ (s : State) (n : Nat) (answers : Nat → BusStatus × List Byte), s.valid = false → n < 16 →
    (∀ k ≤ n, s.answerAt k = .answered (answers k).1 (answers k).2) →
    (∀ k < n, loadStatus k (answers k).1 (answers k).2 = .ack) →
    loadStatus n (answers n).1 (answers n).2 ≠ .ack →
    exec .load s = .next { s with
      script := s.script.drop (n + 1),
      trace := s.trace ++ (List.range (n + 1)).map fun k => loadEvent k (answers k).1 (answers k).2,
      responses := s.responses ++
        [⟨if loadStatus n (answers n).1 (answers n).2 = .nack then 0x01 else 0x02, []⟩] }

/-- R72(a): a LOAD after a successful LOAD makes no bus event and responds OK. The spec marks the rule as derived from R68; here it
is a corollary of LoadKeepsTheCacheAndDropsBadTables. -/
def Obligations.LoadIsIdempotent : Prop :=
  ∀ s t : State, exec .load s = .next t → t.valid = true →
    exec .load t = .next { t with responses := t.responses ++ [⟨0x04, []⟩] }

/-- R70, R96: READPROM returns the slot's word as it was fetched, and faults NotValidated while VALID = 0. -/
def Obligations.ReadpromReturnsTheSlot : Prop :=
  (∀ slot : BitVec 3, decode [0x90#8 ||| slot.setWidth 8] = .instr (.readprom slot) []) ∧
  (∀ (slot : BitVec 3) (s : State) (t : Table), s.valid = true → s.prom = some t →
    ∃ hi lo : Byte, exec (.readprom slot) s =
        .next { s with responses := s.responses ++ [⟨0x04, [hi, lo]⟩] } ∧
      (slotOf t slot).toNat = hi.toNat * 256 + lo.toNat) ∧
  (∀ (slot : BitVec 3) (s : State), s.valid = false → exec (.readprom slot) s = .fault .notValidated)

/-! ### Compensation -/

/-- R74 to R83: every value of the pipeline, by the rule that gives it; the shifts and divisions as floors. The range of `dT` is what
the spec marks as derived from R74. -/
def Obligations.PipelineValuesFollowTheRules : Prop :=
  ∀ (d2 d1 : RawCount) (t : Table), ∀ v, v = pipeline d2 d1 t →
    v.dT = (d2.toNat : Int) - (t[5].toNat : Int) * 2 ^ 8 ∧
    (-16776960 ≤ v.dT ∧ v.dT ≤ 16777215) ∧
    isFloorShift (v.dT * t[6].toNat) 23 (v.temp - 2000) ∧
    (-129069 ≤ v.temp ∧ v.temp ≤ 133069) ∧
    (v.temp < 2000 → isFloorShift (3 * v.dT ^ 2) 33 v.t2) ∧
    (-1500 ≤ v.temp → v.temp < 2000 →
      isFloorShift (61 * (v.temp - 2000) ^ 2) 4 v.off2 ∧ isFloorShift (29 * (v.temp - 2000) ^ 2) 4 v.sens2) ∧
    (v.temp < -1500 →
      isFloorShift (61 * (v.temp - 2000) ^ 2) 4 (v.off2 - 17 * (v.temp + 1500) ^ 2) ∧
      isFloorShift (29 * (v.temp - 2000) ^ 2) 4 (v.sens2 - 9 * (v.temp + 1500) ^ 2)) ∧
    (2000 ≤ v.temp → isFloorShift (5 * v.dT ^ 2) 38 v.t2 ∧ v.off2 = 0 ∧ v.sens2 = 0) ∧
    isFloorShift (t[4].toNat * v.dT) 6 (v.off + v.off2 - t[2].toNat * 2 ^ 17) ∧
    isFloorShift (t[3].toNat * v.dT) 7 (v.sens + v.sens2 - t[1].toNat * 2 ^ 16) ∧
    (∃ q, isFloorShift (d1.toNat * v.sens) 21 q ∧ isFloorShift (q - v.off) 15 v.p) ∧
    v.tout = v.temp - v.t2 ∧
    compensate d2 d1 t = (v.tout, v.p)

/-- R84's table of bounds, over every input. The spec marks the rule as derived by interval arithmetic. -/
def Obligations.PipelineValuesStayInBounds : Prop :=
  ∀ (d2 d1 : RawCount) (t : Table), ∀ v, v = pipeline d2 d1 t →
    (-16776960 ≤ v.dT ∧ v.dT ≤ 16777215) ∧
    |v.dT * t[6].toNat| < 2 ^ 40 ∧
    (-129069 ≤ v.temp ∧ v.temp ≤ 133069) ∧
    (3 * v.dT ^ 2 < 2 ^ 51 ∧ 5 * v.dT ^ 2 < 2 ^ 51) ∧
    (0 ≤ v.t2 ∧ v.t2 ≤ 98303) ∧
    (0 ≤ v.off2 ∧ v.off2 ≤ 342150698963) ∧
    (0 ≤ v.sens2 ∧ v.sens2 ≤ 177601735353) ∧
    (-359330043863 ≤ v.off ∧ v.off ≤ 25769409536) ∧
    (-186191407803 ≤ v.sens ∧ v.sens ≤ 12884704768) ∧
    (-3123773279863608645 ≤ d1.toNat * v.sens ∧ d1.toNat * v.sens ≤ 216169462104261120) ∧
    (-46243304 ≤ v.p ∧ v.p ≤ 14111562) ∧
    (-227372 ≤ v.tout ∧ v.tout ≤ 133069)

/-- R84: the evaluation in signed 64-bit two's complement with arithmetic shifts gives, for every input, the exact integers, and
the 32-bit outputs sent to the host are those integers. -/
def Obligations.SixtyFourBitEvaluationIsExact : Prop :=
  ∀ (d2 d1 : RawCount) (t : Table),
    ((compensate64 d2 d1 t).1.toInt, (compensate64 d2 d1 t).2.toInt) = compensate d2 d1 t ∧
    ((BitVec.ofInt 32 (compensate d2 d1 t).1).toInt, (BitVec.ofInt 32 (compensate d2 d1 t).2).toInt) =
      compensate d2 d1 t

/-- R85(a), (b), (d), (e): which branch is taken, and two laws of the result. The spec marks the rule as derived. -/
def Obligations.BranchAndRoundingLaws : Prop :=
  ∀ (d2 d1 : RawCount) (t : Table), ∀ v, v = pipeline d2 d1 t →
    (v.temp < 2000 ↔ v.dT < 0 ∧ 0 < t[6].toNat) ∧
    (v.temp = 2000 ↔ 0 ≤ v.dT * t[6].toNat ∧ v.dT * t[6].toNat < 2 ^ 23) ∧
    (t[6] = 0#16 → v.temp = 2000 ∧ isFloorShift (5 * v.dT ^ 2) 38 v.t2) ∧
    (0 ≤ v.t2 ∧ v.tout ≤ v.temp) ∧
    (v.sens = 0 → isFloorShift (-v.off) 15 v.p)

/-- R73: `compensate` reads neither the CRC word nor the scratch slot. -/
def Obligations.CompensateReadsSlotsOneToSix : Prop :=
  ∀ (d2 d1 : RawCount) (t : Table) (crcw scr : Word),
    compensate d2 d1 (setSlot (setSlot t 0 crcw) 7 scr) = compensate d2 d1 t

/-- R86, R96: COMP responds with the two outputs of the cached coefficients, each s32 most significant byte first, for every pair
of counts, and writes no state; it faults NotValidated while VALID = 0. -/
def Obligations.CompAnswersTheCompensatedPair : Prop :=
  (∀ d2 d1 : RawCount, decode (0x70#8 :: (bytes24 d2 ++ bytes24 d1)) = .instr (.comp d2 d1) []) ∧
  (∀ (d2 d1 : RawCount) (s : State) (t : Table), s.valid = true → s.prom = some t →
    ∃ x3 x2 x1 x0 p3 p2 p1 p0 : Byte,
      exec (.comp d2 d1) s =
        .next { s with responses := s.responses ++ [⟨0x04, [x3, x2, x1, x0, p3, p2, p1, p0]⟩] } ∧
      ((x3 ++ x2 ++ x1 ++ x0 : BitVec 32).toInt, (p3 ++ p2 ++ p1 ++ p0 : BitVec 32).toInt) = compensate d2 d1 t) ∧
  (∀ (d2 d1 : RawCount) (s : State), s.valid = false → exec (.comp d2 d1) s = .fault .notValidated)

/-! ### Resolution and measurement -/

/-- R88: SETRES stores the code and makes no bus event; codes 6 and 7 are refused (R45). -/
def Obligations.SetresStoresTheCode : Prop :=
  (∀ code : BitVec 3, code.toNat ≤ 5 → decode [0x40#8 ||| code.setWidth 8] = .instr (.setres code) []) ∧
  (∀ (code : BitVec 3) (s : State), code.toNat ≤ 5 → exec (.setres code) s =
    .next { s with osr := code, responses := s.responses ++ [⟨if s.valid then 0x04 else 0x00, []⟩] }) ∧
  (∀ (code : BitVec 3) (s : State), 5 < code.toNat →
    decode [0x40#8 ||| code.setWidth 8] = .rejected .reservedResolution ∧
    exec (.setres code) s = .refused .reservedResolution)

/-- R90: one conversion: start command, wait, the 0x00 write, a read of 3 bytes; a failed start is followed by no wait and no
exchange, and the first error ends it. Which reads count as failed, and as what, is R53; what a failed read records is the
model's reading of it, log 12. -/
def Obligations.ConversionIsStartWaitSelectRead : Prop :=
  ∀ (base : Byte) (s : State),
    (∀ b0 b1 b2 : Byte, s.ackAt 0 → s.ackAt 1 → s.answerAt 2 = .answered .ack [b0, b1, b2] →
      ∃ d : RawCount, d.toNat = b0.toNat * 65536 + b1.toNat * 256 + b2.toNat ∧
        convert base s = .ok d (s.after 3
          [.write (convCommand s.osr base) .ack, .wait (Config.convWaitMs s.osr), .write 0x00#8 .ack,
           .read 3 .ack [b0, b1, b2]])) ∧
    (∀ (st : BusStatus) (bytes : List Byte), s.answerAt 0 = .answered st bytes → st ≠ .ack →
      convert base s = .fail (if st = .nack then .noAcknowledge else .transferError)
        (s.after 1 [.write (convCommand s.osr base) st])) ∧
    (∀ (st : BusStatus) (bytes : List Byte), s.ackAt 0 → s.answerAt 1 = .answered st bytes → st ≠ .ack →
      convert base s = .fail (if st = .nack then .noAcknowledge else .transferError)
        (s.after 2 [.write (convCommand s.osr base) .ack, .wait (Config.convWaitMs s.osr), .write 0x00#8 st])) ∧
    (∀ (st : BusStatus) (bytes : List Byte), s.ackAt 0 → s.ackAt 1 → s.answerAt 2 = .answered st bytes →
      (st ≠ .ack ∨ bytes.length ≠ 3) →
      convert base s = .fail (if st = .nack then .noAcknowledge else .transferError)
        (s.after 3 [.write (convCommand s.osr base) .ack, .wait (Config.convWaitMs s.osr), .write 0x00#8 .ack,
                    .read 3 (if st = .nack then .nack else .err) bytes]))

/-- R91, R93(c): with the coefficients cached, READTP makes the 8 events of the two conversions, temperature first, and responds
with the compensated pair; nothing else of the state changes. -/
def Obligations.ReadtpMeasuresWithCachedCoefficients : Prop :=
  decode [0x80#8] = .instr .readtp [] ∧
  ∀ (s : State) (t : Table) (d2 d1 : RawCount), s.valid = true → s.prom = some t →
    s.deliversCount 0 d2 → s.deliversCount 3 d1 → d2 ≠ 0#24 → d1 ≠ 0#24 →
    ∃ x3 x2 x1 x0 p3 p2 p1 p0 : Byte,
      exec .readtp s = .next { s with
        script := s.script.drop 6, trace := s.trace ++ measureEvents s.osr d2 d1,
        responses := s.responses ++ [⟨0x04, [x3, x2, x1, x0, p3, p2, p1, p0]⟩] } ∧
      ((x3 ++ x2 ++ x1 ++ x0 : BitVec 32).toInt, (p3 ++ p2 ++ p1 ++ p0 : BitVec 32).toInt) = compensate d2 d1 t

/-- R91, R68: from an empty cache READTP first does what LOAD does. If LOAD ends without the commit, in an error or stuck, READTP
ends the same; if LOAD commits, READTP goes on as with the cache, from the state LOAD leaves but for LOAD's response. -/
def Obligations.ReadtpLoadsFirst : Prop :=
  ∀ s : State, s.valid = false →
    (∀ t, exec .load s = .next t → t.valid = false → exec .readtp s = .next t) ∧
    (∀ f, exec .load s = .fault f → exec .readtp s = .fault f) ∧
    (∀ t, exec .load s = .next t → t.valid = true →
      exec .readtp s = exec .readtp { t with responses := s.responses })

/-- R91: from an empty cache and with every exchange answered well, READTP makes 24 events, the 16 of LOAD first, and leaves the
coefficients cached. -/
def Obligations.ReadtpFromAnEmptyCache : Prop :=
  ∀ (s : State) (t : Table) (d2 d1 : RawCount), s.valid = false → s.delivers t → crcOk t = true →
    s.deliversCount 16 d2 → s.deliversCount 19 d1 → d2 ≠ 0#24 → d1 ≠ 0#24 →
    exec .readtp s = .next { s with
        prom := some t, valid := true, script := s.script.drop 22,
        trace := s.trace ++ fetchEvents t ++ measureEvents s.osr d2 d1,
        responses := s.responses ++ [⟨0x04, outputBytes (compensate d2 d1 t)⟩] } ∧
      (fetchEvents t ++ measureEvents s.osr d2 d1).length = 24

/-- R92, R93(a): the zero guard runs after both conversions; a raw count of exactly 0 is a TransferError although every exchange
was acknowledged, and the coefficients stay. -/
def Obligations.ZeroCountIsATransferError : Prop :=
  ∀ (s : State) (d2 d1 : RawCount), s.valid = true →
    s.deliversCount 0 d2 → s.deliversCount 3 d1 → (d2 = 0#24 ∨ d1 = 0#24) →
    exec .readtp s = .next { s with
      script := s.script.drop 6, trace := s.trace ++ measureEvents s.osr d2 d1,
      responses := s.responses ++ [⟨0x06, []⟩] }

/-- R93(a), R99, R100: with the coefficients cached, READTP ends at the first of its six exchanges that fails, with that exchange's
error, whatever the counts read before it, with every event up to and including it recorded, and the coefficients and OSR
as they were. Which reads count as failed, and as what, is R53; what a failed read records is the model's reading of it,
log 12. -/
def Obligations.ReadtpEndsAtTheFirstFailedExchange : Prop :=
  ∀ (s : State) (n : Nat) (answers : Nat → BusStatus × List Byte), s.valid = true → n < 6 →
    (∀ k ≤ n, s.answerAt k = .answered (answers k).1 (answers k).2) →
    (∀ k < n, measureStatus k (answers k).1 (answers k).2 = .ack) →
    measureStatus n (answers n).1 (answers n).2 ≠ .ack →
    exec .readtp s = .next { s with
      script := s.script.drop (n + 1),
      trace := s.trace ++
        (List.range (n + 1)).flatMap fun k => measureEventsAt s.osr k (answers k).1 (answers k).2,
      responses := s.responses ++
        [⟨if measureStatus n (answers n).1 (answers n).2 = .nack then 0x05 else 0x06, []⟩] }

/-- Source property S4 (95_test_vectors.md section 1): READTP and COMP give the same data for the same counts and coefficients. -/
def Obligations.ReadtpAgreesWithComp : Prop :=
  ∀ (s t u : State) (d2 d1 : RawCount), s.valid = true →
    s.deliversCount 0 d2 → s.deliversCount 3 d1 → d2 ≠ 0#24 → d1 ≠ 0#24 →
    exec .readtp s = .next t → exec (.comp d2 d1) s = .next u → t.responses = u.responses

/-! ### Rules of the whole machine -/

/-- The invariant holds at reset. -/
def Obligations.ResetMeetsTheInvariant : Prop := State.reset.Inv

/-- R17, R18, R49, R53: every step keeps the invariant, from every state that meets it: VALID is set exactly while PROM holds a
table and that table's CRC matches; OSR holds a code of 0 to 5; and every event on record is one the rules can make. -/
def Obligations.StepKeepsTheInvariant : Prop :=
  ∀ s t : State, s.Inv → step s = .next t → t.Inv

/-- R20, R22: what each operation leaves unchanged. OSR: all but SETRES. PROM and VALID: all but a commit of LOAD or READTP from an
empty cache, which stores a table whose CRC matches. TRACE only grows, and stays as it is but for INIT and the operations that
use the bus. The inputs to come and the oracle's default answer stay; answers are only taken from the front, and only by the
operations that use the bus. -/
def Obligations.OperationsChangeOnlyTheirOwnState : Prop :=
  ∀ (i : Instr) (s t : State), exec i s = .next t →
    (t.osr = s.osr ∨ ∃ code, i = .setres code ∧ t.osr = code) ∧
    ((t.prom = s.prom ∧ t.valid = s.valid) ∨
      (mayLoad i = true ∧ s.valid = false ∧ t.valid = true ∧ ∃ table, t.prom = some table ∧ crcOk table = true)) ∧
    (∃ es, t.trace = s.trace ++ es ∧ (usesBus i = false → es = if i = .init then [.ini] else [])) ∧
    (∃ k, t.script = s.script.drop k ∧ (usesBus i = false → k = 0)) ∧
    t.inputs = s.inputs ∧ t.afterScript = s.afterScript

/-- R47: every request that is not refused and does not fault gets exactly one response; its status byte holds a code in bits 1:0,
the VALID after the operation in bit 2, and zeros above. With the lengths of the data of R48. -/
def Obligations.EveryRequestGetsOneResponse : Prop :=
  ∀ (i : Instr) (s t : State), exec i s = .next t →
    ∃ (r : Response) (code : Nat), t.responses = s.responses ++ [r] ∧ code < 4 ∧
      r.status.toNat = code + (if t.valid then 4 else 0) ∧
      r.data.length = if code = 0 then dataLength i else 0

/-- R95 and 95_test_vectors.md section 2: only DEVRESET, LOAD and READTP respond with an error; CrcError comes of LOAD and READTP
only, and leaves VALID = 0, so the status byte 07 never occurs. -/
def Obligations.ErrorStatusesByOperation : Prop :=
  ∀ (i : Instr) (s t : State) (r : Response), exec i s = .next t → t.responses = s.responses ++ [r] →
    (r.status.toNat % 4 ≠ 0 → i = .devreset ∨ i = .load ∨ i = .readtp) ∧
    (r.status.toNat % 4 = 3 → (i = .load ∨ i = .readtp) ∧ t.valid = false ∧ t.prom = s.prom) ∧
    r.status ≠ 0x07

/-- R20, R36: while VALID is 1 no step changes PROM or VALID, except a block reset. -/
def Obligations.CachedCoefficientsStayUntilReset : Prop :=
  ∀ s t : State, step s = .next t → s.valid = true →
    (t.prom = s.prom ∧ t.valid = true) ∨ (∃ rest, fetch s.inputs = .reset rest)

/-- R96: from states with `VALID = 1` exactly while PROM is set, the fault NotValidated is raised by COMP and READPROM with VALID = 0
and by nothing else. -/
def Obligations.NotValidatedComesOfCompAndReadprom : Prop :=
  ∀ (i : Instr) (s : State), s.valid = s.prom.isSome →
    (exec i s = .fault .notValidated ↔ readsStore i = true ∧ s.valid = false)

/-- R98(a), R114: an operation is stuck only on one of its own exchanges, the ones before it answered well and that one never
answered. That being stuck is a fault of the model is log 3. -/
def Obligations.StuckOnlyWhenTheBusNeverAnswers : Prop :=
  ∀ (i : Instr) (s : State) (x : Exchange), exec i s = .fault (.busNeverCompletes x) →
    usesBus i = true ∧ x.addr = Config.devAddr ∧ ∃ k, s.StuckAt i k x.kind

/-- R114, R47: every well-formed request responds, if the transport answers every exchange and, for COMP and READPROM, the store is
validated. -/
def Obligations.RequestsRespondWhenTheBusAnswers : Prop :=
  ∀ (i : Instr) (s : State), WellFormed i → s.valid = s.prom.isSome →
    (readsStore i = true → s.valid = true) → (∀ k, s.answerAt k ≠ .never) →
    ∃ t, exec i s = .next t ∧ t.responses.length = s.responses.length + 1

/-- R45, R97: exec refuses nothing that is well-formed. -/
def Obligations.WellFormedRequestsAreNeverRefused : Prop :=
  ∀ (i : Instr) (s : State) (why : Refusal), WellFormed i → exec i s ≠ .refused why

/-! ### The assembler's forms -/

/-- R50: a mnemonic with operands assembles exactly when it is one of the nine forms, and then to that form's operation: COMP takes
the temperature first, CRCCHK the words in slot order. -/
def Obligations.AssemblerHasTheNineForms : Prop :=
  ∀ (mnemonic : String) (operands : List Nat) (i : Instr),
    asmInstr mnemonic.toList operands = some i ↔ AsmForm mnemonic operands i

/-- R50: a number is a row of decimal digits, or a row of hex digits after `0x`, most significant first. That hex digits may be
small or capital is log 10. -/
def Obligations.AssemblerNumbersAreDecimalOrHex : Prop :=
  ∀ (text : List Char) (n : Nat), parseNumber text = some n ↔
    ∃ digits : List Nat, digits ≠ [] ∧
      (((∀ d ∈ digits, d < 10) ∧ text = digits.map Nat.digitChar ∧ n = Nat.ofDigits 10 digits.reverse) ∨
       ((∀ d ∈ digits, d < 16) ∧ (∃ row, text = '0' :: 'x' :: row ∧ row.map Char.toLower = digits.map Nat.digitChar) ∧
        n = Nat.ofDigits 16 digits.reverse))

/-- R50: a line is a mnemonic in letters of either case, then its operands with commas between them; and every well-formed
instruction has such a line. The single blanks are those of R50's own lines; what other blanks may stand is log 10. -/
def Obligations.AssemblerLinesHoldMnemonicAndOperands : Prop :=
  (∀ (mnemonic : List Char) (texts : List (List Char)) (numbers : List Nat),
    mnemonic ≠ [] → (∀ c ∈ mnemonic, c ≠ ' ' ∧ c ≠ '\t') → texts.map parseNumber = numbers.map some →
    assemble (mnemonic ++ (if texts = [] then [] else ' ' :: [',', ' '].intercalate texts)) =
      asmInstr (mnemonic.map Char.toUpper) numbers) ∧
  (∀ i : Instr, WellFormed i → ∃ line, assemble line = some i)
end

