-- ==== Sys2Proof/Laws/Encoding.lean ====
section
/-! SUPPORT. The byte-order helpers and the header byte in arithmetic; what the decoder's parts accept; the decoder and the fetch
on bytes that are followed by others. -/

namespace Sys2Proof

/-! ### Byte order -/

theorem or_eq_add_of_lt {a b n : Nat} (h : b < 2 ^ n) : a * 2 ^ n ||| b = a * 2 ^ n + b := by
  rw [← Nat.shiftLeft_eq, Nat.shiftLeft_add_eq_or_of_lt h]

theorem toNat_be16 (b0 b1 : Byte) : (be16 b0 b1).toNat = b0.toNat * 2 ^ 8 + b1.toNat := by
  have h0 := b0.isLt
  have h1 := b1.isLt
  simp only [be16, BitVec.toNat_or, BitVec.toNat_shiftLeft, BitVec.toNat_setWidth, Nat.shiftLeft_eq]
  rw [Nat.mod_eq_of_lt (by omega : b1.toNat < 2 ^ 16), Nat.mod_eq_of_lt (by omega : b0.toNat < 2 ^ 16),
    Nat.mod_eq_of_lt (by omega), or_eq_add_of_lt h1]

theorem toNat_be24 (b0 b1 b2 : Byte) :
    (be24 b0 b1 b2).toNat = b0.toNat * 2 ^ 16 + b1.toNat * 2 ^ 8 + b2.toNat := by
  have h0 := b0.isLt
  have h1 := b1.isLt
  have h2 := b2.isLt
  simp only [be24, BitVec.toNat_or, BitVec.toNat_shiftLeft, BitVec.toNat_setWidth, Nat.shiftLeft_eq]
  rw [Nat.mod_eq_of_lt (by omega : b2.toNat < 2 ^ 24), Nat.mod_eq_of_lt (by omega : b1.toNat < 2 ^ 24),
    Nat.mod_eq_of_lt (by omega : b0.toNat < 2 ^ 24), Nat.mod_eq_of_lt (by omega : b1.toNat * 2 ^ 8 < 2 ^ 24),
    Nat.mod_eq_of_lt (by omega), or_eq_add_of_lt (by omega : b1.toNat * 2 ^ 8 < 2 ^ 16),
    show b0.toNat * 2 ^ 16 + b1.toNat * 2 ^ 8 = (b0.toNat * 2 ^ 8 + b1.toNat) * 2 ^ 8 by ring, or_eq_add_of_lt h2]

theorem be16_of_bytes (w : Word) : be16 (w.extractLsb' 8 8) (w.extractLsb' 0 8) = w := by
  apply BitVec.eq_of_toNat_eq
  simp [toNat_be16, BitVec.extractLsb'_toNat, Nat.shiftRight_eq_div_pow]
  omega

theorem be24_of_bytes (w : RawCount) :
    be24 (w.extractLsb' 16 8) (w.extractLsb' 8 8) (w.extractLsb' 0 8) = w := by
  apply BitVec.eq_of_toNat_eq
  simp [toNat_be24, BitVec.extractLsb'_toNat, Nat.shiftRight_eq_div_pow]
  omega

theorem bytes16_be16 (b0 b1 : Byte) : bytes16 (be16 b0 b1) = [b0, b1] := by
  have h0 := b0.isLt
  have h1 := b1.isLt
  simp only [bytes16, List.cons.injEq, and_true]
  constructor <;> apply BitVec.eq_of_toNat_eq <;>
    simp [toNat_be16, BitVec.extractLsb'_toNat, Nat.shiftRight_eq_div_pow] <;> omega

theorem bytes24_be24 (b0 b1 b2 : Byte) : bytes24 (be24 b0 b1 b2) = [b0, b1, b2] := by
  have h0 := b0.isLt
  have h1 := b1.isLt
  have h2 := b2.isLt
  simp only [bytes24, List.cons.injEq, and_true]
  refine ⟨?_, ?_, ?_⟩ <;> apply BitVec.eq_of_toNat_eq <;>
    simp [toNat_be24, BitVec.extractLsb'_toNat, Nat.shiftRight_eq_div_pow] <;> omega

@[simp] theorem bytes16_length (w : Word) : (bytes16 w).length = 2 := rfl
@[simp] theorem bytes24_length (d : RawCount) : (bytes24 d).length = 3 := rfl
@[simp] theorem bytes32_length (w : Out32) : (bytes32 w).length = 4 := rfl

theorem table_toList (t : Table) : t.toList = [t[0], t[1], t[2], t[3], t[4], t[5], t[6], t[7]] := by
  obtain ⟨⟨l⟩, h⟩ := t
  match l, h with
  | [_, _, _, _, _, _, _, _], _ => rfl

theorem table_of_slots (t : Table) : #v[t[0], t[1], t[2], t[3], t[4], t[5], t[6], t[7]] = t := by
  obtain ⟨⟨l⟩, h⟩ := t
  match l, h with
  | [_, _, _, _, _, _, _, _], _ => rfl

/-! ### The header byte -/

theorem headerOp_toNat (h : Byte) : (headerOp h).toNat = h.toNat / 16 := by
  have := h.isLt
  simp [headerOp, Nat.shiftRight_eq_div_pow]
  omega

theorem headerK_toNat (h : Byte) : (headerK h).toNat = h.toNat % 8 := by
  simp [headerK]

theorem headerZ_iff (h : Byte) : headerZ h = true ↔ h.toNat / 8 % 2 = 1 := by
  simp [headerZ, BitVec.getLsbD, Nat.testBit, Nat.shiftRight_eq_div_pow, Nat.one_and_eq_mod_two]

theorem header_fields (op : BitVec 4) (k : BitVec 3) :
    headerOp (header op k) = op ∧ headerZ (header op k) = false ∧ headerK (header op k) = k := by
  revert op k
  decide

theorem header_of_fields (h : Byte) (hz : headerZ h = false) : header (headerOp h) (headerK h) = h := by
  revert h
  decide

/-! ### What the decoder's parts accept -/

theorem requireZeroZK_instr {h : Byte} {good : Decoded} {i : Instr} {rest : List Byte} :
    requireZeroZK h good = .instr i rest ↔
      headerZ h = false ∧ headerK h = 0#3 ∧ good = .instr i rest := by
  cases hz : headerZ h <;> by_cases hk : headerK h = 0#3 <;> simp [requireZeroZK, hz, hk]

theorem requireZeroZ_instr {h : Byte} {good : Decoded} {i : Instr} {rest : List Byte} :
    requireZeroZ h good = .instr i rest ↔ headerZ h = false ∧ good = .instr i rest := by
  cases hz : headerZ h <;> simp [requireZeroZ, hz]

theorem decodeResolution_instr {k : BitVec 3} {i : Instr} {bs rest : List Byte} :
    decodeResolution k bs = .instr i rest ↔ k.toNat ≤ 5 ∧ i = .setres k ∧ rest = bs := by
  by_cases hk : k.toNat ≤ 5 <;> simp [decodeResolution, hk, eq_comm]

theorem decodeTable_instr {i : Instr} {bs rest : List Byte} :
    decodeTable bs = .instr i rest ↔ ∃ t : Table, i = .crcchk t ∧ bs = t.toList.flatMap bytes16 ++ rest := by
  constructor
  · intro h
    unfold decodeTable at h
    split at h
    · cases h
      exact ⟨_, rfl, by simp [bytes16_be16]⟩
    · cases h
  · rintro ⟨t, rfl, rfl⟩
    simp only [table_toList, List.flatMap_cons, List.flatMap_nil, bytes16, List.cons_append, List.nil_append,
      decodeTable, be16_of_bytes, table_of_slots]

theorem decodeCounts_instr {i : Instr} {bs rest : List Byte} :
    decodeCounts bs = .instr i rest ↔
      ∃ d2 d1 : RawCount, i = .comp d2 d1 ∧ bs = bytes24 d2 ++ bytes24 d1 ++ rest := by
  constructor
  · intro h
    unfold decodeCounts at h
    split at h
    · cases h
      exact ⟨_, _, rfl, by simp [bytes24_be24]⟩
    · cases h
  · rintro ⟨d2, d1, rfl, rfl⟩
    simp only [bytes24, List.cons_append, List.nil_append, decodeCounts, be24_of_bytes]

/-! ### Bytes followed by others -/

/-- An instruction is read the same whatever follows the bytes it was read from. -/
theorem decode_append {bs rest : List Byte} {i : Instr} (h : decode bs = .instr i rest) (more : List Byte) :
    decode (bs ++ more) = .instr i (rest ++ more) := by
  match bs, h with
  | h0 :: p, h =>
    simp only [decode, List.cons_append, decodeRequest] at h ⊢
    split at h <;>
      simp_all [requireZeroZK_instr, requireZeroZ_instr, decodeResolution_instr, decodeTable_instr,
        decodeCounts_instr]
    · obtain ⟨-, -, t, rfl, rfl⟩ := h
      exact ⟨t, rfl, by simp⟩
    · obtain ⟨-, -, d2, d1, rfl, rfl⟩ := h
      exact ⟨d2, d1, rfl, by simp⟩

end Sys2Proof

namespace Sys2Proof.Machine

@[simp] theorem leadingBytes_map_append (bs : List Byte) (inputs : List HostInput) :
    leadingBytes (bs.map .byte ++ inputs) = bs ++ leadingBytes inputs := by
  induction bs with
  | nil => rfl
  | cons b bs ih => simp [leadingBytes, ih]

@[simp] theorem fromReset_map_append (bs : List Byte) (inputs : List HostInput) :
    fromReset (bs.map .byte ++ inputs) = fromReset inputs := by
  induction bs with
  | nil => rfl
  | cons b bs ih => simpa [fromReset] using ih

/-- Bytes that decode and leave nothing over are fetched as their instruction, and only they are taken off the input. -/
theorem fetch_request {bytes : List Byte} {i : Instr} (h : decode bytes = .instr i []) (rest : List HostInput) :
    fetch (bytes.map .byte ++ rest) = .request i rest := by
  simp [fetch, decode_append h]

end Sys2Proof.Machine
end

