-- ==== Sys2Proof/Laws/Crc.lean ====
section
/-! SUPPORT. The parts of the CRC are linear over GF(2): the shift steps, the absorbing of a byte, the working copy. The CRC is
the composition of them. -/

namespace Sys2Proof.Machine

theorem crcStep_xor (a b : Word) : crcStep (a ^^^ b) = crcStep a ^^^ crcStep b := by
  unfold crcStep
  rw [BitVec.getLsbD_xor]
  cases a.getLsbD 15 <;> cases b.getLsbD 15 <;> simp only [BitVec.shiftLeft_xor_distrib, Bool.xor_false,
    Bool.xor_true, Bool.not_false, Bool.not_true, Bool.false_eq_true, if_true, if_false]
  · ac_rfl
  · ac_rfl
  · rw [show a <<< 1 ^^^ Config.crcPoly ^^^ (b <<< 1 ^^^ Config.crcPoly) =
      a <<< 1 ^^^ b <<< 1 ^^^ (Config.crcPoly ^^^ Config.crcPoly) by ac_rfl]
    simp

theorem crcSteps_xor (n : Nat) (a b : Word) : crcSteps n (a ^^^ b) = crcSteps n a ^^^ crcSteps n b := by
  induction n generalizing a b with
  | zero => rfl
  | succ n ih => simp only [crcSteps, crcStep_xor, ih]

/-- Absorbing a byte is linear in the remainder and the byte together. -/
theorem crcAbsorb_xor (r s a b : Word) : crcAbsorb (r ^^^ s) (a ^^^ b) = crcAbsorb r a ^^^ crcAbsorb s b := by
  simp only [crcAbsorb, ← crcSteps_xor]
  congr 1
  ac_rfl

/-- The remainder after bytes of the same number is linear in the bytes and the start together. -/
theorem crcRemainder_xor (xs ys : List Word) (h : xs.length = ys.length) (r s : Word) :
    crcRemainder (List.zipWith (· ^^^ ·) xs ys) (r ^^^ s) = crcRemainder xs r ^^^ crcRemainder ys s := by
  induction xs generalizing ys r s with
  | nil =>
    match ys, h with
    | [], _ => rfl
  | cons x xs ih =>
    match ys, h with
    | y :: ys, h =>
      simpa [crcRemainder, crcAbsorb_xor] using ih ys (by simpa using h) (crcAbsorb r x) (crcAbsorb s y)

/-- The bytes of a table in the order of the CRC (R62, R63): slot 7 is zero, and so are bits 15:12 of slot 0. -/
theorem bitstream_workingCopy (t : Table) :
    bitstream (workingCopy t) =
      [(t[0] &&& 0x0FFF#16) >>> 8, (t[0] &&& 0x0FFF#16) &&& 0x00FF#16, t[1] >>> 8, t[1] &&& 0x00FF#16,
       t[2] >>> 8, t[2] &&& 0x00FF#16, t[3] >>> 8, t[3] &&& 0x00FF#16, t[4] >>> 8, t[4] &&& 0x00FF#16,
       t[5] >>> 8, t[5] &&& 0x00FF#16, t[6] >>> 8, t[6] &&& 0x00FF#16, 0x0000#16, 0x0000#16] := by
  simp [bitstream, table_toList, workingCopy]

end Sys2Proof.Machine
end

