-- ==== Sys2Proof/Laws/State.lean ====
section
/-! SUPPORT. One lemma per field per update of the state, each true by unfolding, so that no later proof unfolds an update. -/

namespace Sys2Proof.Machine

section
variable (s : State) (e : Event)
@[simp] theorem record_prom : (s.record e).prom = s.prom := rfl
@[simp] theorem record_valid : (s.record e).valid = s.valid := rfl
@[simp] theorem record_osr : (s.record e).osr = s.osr := rfl
@[simp] theorem record_trace : (s.record e).trace = s.trace ++ [e] := rfl
@[simp] theorem record_inputs : (s.record e).inputs = s.inputs := rfl
@[simp] theorem record_script : (s.record e).script = s.script := rfl
@[simp] theorem record_afterScript : (s.record e).afterScript = s.afterScript := rfl
@[simp] theorem record_responses : (s.record e).responses = s.responses := rfl
end

section
variable (s : State)
@[simp] theorem takeAnswer_prom : s.takeAnswer.prom = s.prom := rfl
@[simp] theorem takeAnswer_valid : s.takeAnswer.valid = s.valid := rfl
@[simp] theorem takeAnswer_osr : s.takeAnswer.osr = s.osr := rfl
@[simp] theorem takeAnswer_trace : s.takeAnswer.trace = s.trace := rfl
@[simp] theorem takeAnswer_inputs : s.takeAnswer.inputs = s.inputs := rfl
@[simp] theorem takeAnswer_script : s.takeAnswer.script = s.script.tail := rfl
@[simp] theorem takeAnswer_afterScript : s.takeAnswer.afterScript = s.afterScript := rfl
@[simp] theorem takeAnswer_responses : s.takeAnswer.responses = s.responses := rfl
end

section
variable (s : State) (t : Table)
@[simp] theorem commit_prom : (s.commit t).prom = some t := rfl
@[simp] theorem commit_valid : (s.commit t).valid = true := rfl
@[simp] theorem commit_osr : (s.commit t).osr = s.osr := rfl
@[simp] theorem commit_trace : (s.commit t).trace = s.trace := rfl
@[simp] theorem commit_inputs : (s.commit t).inputs = s.inputs := rfl
@[simp] theorem commit_script : (s.commit t).script = s.script := rfl
@[simp] theorem commit_afterScript : (s.commit t).afterScript = s.afterScript := rfl
@[simp] theorem commit_responses : (s.commit t).responses = s.responses := rfl
end

section
variable (s : State) (c : BitVec 3)
@[simp] theorem setOsr_prom : (s.setOsr c).prom = s.prom := rfl
@[simp] theorem setOsr_valid : (s.setOsr c).valid = s.valid := rfl
@[simp] theorem setOsr_osr : (s.setOsr c).osr = c := rfl
@[simp] theorem setOsr_trace : (s.setOsr c).trace = s.trace := rfl
@[simp] theorem setOsr_inputs : (s.setOsr c).inputs = s.inputs := rfl
@[simp] theorem setOsr_script : (s.setOsr c).script = s.script := rfl
@[simp] theorem setOsr_afterScript : (s.setOsr c).afterScript = s.afterScript := rfl
@[simp] theorem setOsr_responses : (s.setOsr c).responses = s.responses := rfl
end

section
variable (s : State) (r : Response)
@[simp] theorem answerHost_prom : (s.answerHost r).prom = s.prom := rfl
@[simp] theorem answerHost_valid : (s.answerHost r).valid = s.valid := rfl
@[simp] theorem answerHost_osr : (s.answerHost r).osr = s.osr := rfl
@[simp] theorem answerHost_trace : (s.answerHost r).trace = s.trace := rfl
@[simp] theorem answerHost_inputs : (s.answerHost r).inputs = s.inputs := rfl
@[simp] theorem answerHost_script : (s.answerHost r).script = s.script := rfl
@[simp] theorem answerHost_afterScript : (s.answerHost r).afterScript = s.afterScript := rfl
@[simp] theorem answerHost_responses : (s.answerHost r).responses = s.responses ++ [r] := rfl
end

section
variable (s : State) (l : List HostInput)
@[simp] theorem withInputs_prom : (s.withInputs l).prom = s.prom := rfl
@[simp] theorem withInputs_valid : (s.withInputs l).valid = s.valid := rfl
@[simp] theorem withInputs_osr : (s.withInputs l).osr = s.osr := rfl
@[simp] theorem withInputs_trace : (s.withInputs l).trace = s.trace := rfl
@[simp] theorem withInputs_inputs : (s.withInputs l).inputs = l := rfl
@[simp] theorem withInputs_script : (s.withInputs l).script = s.script := rfl
@[simp] theorem withInputs_afterScript : (s.withInputs l).afterScript = s.afterScript := rfl
@[simp] theorem withInputs_responses : (s.withInputs l).responses = s.responses := rfl
end

section
variable (s : State)
@[simp] theorem blockReset_prom : s.blockReset.prom = none := rfl
@[simp] theorem blockReset_valid : s.blockReset.valid = false := rfl
@[simp] theorem blockReset_osr : s.blockReset.osr = Config.osrReset := rfl
@[simp] theorem blockReset_trace : s.blockReset.trace = [] := rfl
@[simp] theorem blockReset_inputs : s.blockReset.inputs = s.inputs := rfl
@[simp] theorem blockReset_script : s.blockReset.script = s.script := rfl
@[simp] theorem blockReset_afterScript : s.blockReset.afterScript = s.afterScript := rfl
@[simp] theorem blockReset_responses : s.blockReset.responses = s.responses := rfl
end

section
variable (s : State) (k : Nat) (es : List Event)
@[simp] theorem after_prom : (s.after k es).prom = s.prom := rfl
@[simp] theorem after_valid : (s.after k es).valid = s.valid := rfl
@[simp] theorem after_osr : (s.after k es).osr = s.osr := rfl
@[simp] theorem after_trace : (s.after k es).trace = s.trace ++ es := rfl
@[simp] theorem after_inputs : (s.after k es).inputs = s.inputs := rfl
@[simp] theorem after_script : (s.after k es).script = s.script.drop k := rfl
@[simp] theorem after_afterScript : (s.after k es).afterScript = s.afterScript := rfl
@[simp] theorem after_responses : (s.after k es).responses = s.responses := rfl
end

end Sys2Proof.Machine
end

