-- ==== Sys2Proof/Laws/Ops.lean ====
section
/-! SUPPORT. What the shared operations can do. A sequence of exchanges answers, from `s`, a state `s.after k es`: `k` answers
taken, the events `es` recorded, nothing else changed. One lemma per operation and answer, then one that covers every answer. -/

namespace Sys2Proof.Machine

/-! ### The state after some exchanges -/

@[simp] theorem after_zero (s : State) : s.after 0 [] = s := by
  simp [State.after]

@[simp] theorem after_after (s : State) (k l : Nat) (es fs : List Event) :
    (s.after k es).after l fs = s.after (k + l) (es ++ fs) := by
  simp [State.after, List.append_assoc]

@[simp] theorem takeAnswer_eq_after (s : State) : s.takeAnswer = s.after 1 [] := by
  simp [State.after, State.takeAnswer]

@[simp] theorem record_eq_after (s : State) (e : Event) : s.record e = s.after 0 [e] := by
  simp [State.after, State.record]

@[simp] theorem busWait_eq_after (ms : Nat) (s : State) : busWait ms s = s.after 0 [.wait ms] := by
  simp [busWait]

@[simp] theorem answerAt_after (s : State) (k l : Nat) (es : List Event) :
    (s.after k es).answerAt l = s.answerAt (k + l) := by
  simp [State.answerAt, List.getD_eq_getElem?_getD]

theorem nextAnswer_eq (s : State) : s.nextAnswer = s.answerAt 0 := by
  cases h : s.script <;> simp [State.nextAnswer, State.answerAt, h]

@[simp] theorem nextAnswer_after (s : State) (k : Nat) (es : List Event) :
    (s.after k es).nextAnswer = s.answerAt k := by
  simp [nextAnswer_eq]

@[simp] theorem respond_eq (st : Status) (data : List Byte) (s : State) :
    respond st data s = { s with responses := s.responses ++ [⟨statusByte st s.valid, data⟩] } := rfl

/-! ### Sequencing -/

@[simp] theorem ok_andThen {α β : Type} (a : α) (s : State) (k : α → State → Res β) :
    (Res.ok a s).andThen k = k a s := rfl

@[simp] theorem fail_andThen {α β : Type} (e : ErrorKind) (s : State) (k : α → State → Res β) :
    (Res.fail e s : Res α).andThen k = .fail e s := rfl

@[simp] theorem stop_andThen {α β : Type} (f : Fault) (k : α → State → Res β) :
    (Res.stop f : Res α).andThen k = .stop f := rfl

@[simp] theorem finish_ok (data : List Byte) (s : State) :
    (Res.ok data s).finish = .next (respond .ok data s) := rfl

@[simp] theorem finish_fail (e : ErrorKind) (s : State) :
    (Res.fail e s).finish = .next (respond (.error e) [] s) := rfl

@[simp] theorem finish_stop (f : Fault) : (Res.stop f).finish = .fault f := rfl

theorem andThen_assoc {α β γ : Type} (r : Res α) (f : α → State → Res β) (g : β → State → Res γ) :
    (r.andThen f).andThen g = r.andThen fun a s => (f a s).andThen g := by
  cases r <;> rfl

/-- An operation never ends in a refusal. -/
theorem finish_ne_refused (r : Res (List Byte)) (why : Refusal) : r.finish ≠ .refused why := by
  cases r <;> simp

/-! ### Single exchanges, by the answer -/

@[simp] theorem check_ack (s : State) : check .ack s = .ok () s := rfl
@[simp] theorem check_nack (s : State) : check .nack s = .fail .noAcknowledge s := rfl
@[simp] theorem check_err (s : State) : check .err s = .fail .transferError s := rfl

@[simp] theorem readStatus_nack (n : Nat) (bs : List Byte) : readStatus n .nack bs = .nack := rfl
@[simp] theorem readStatus_err (n : Nat) (bs : List Byte) : readStatus n .err bs = .err := rfl

theorem readStatus_ack_iff (n : Nat) (st : BusStatus) (bs : List Byte) :
    readStatus n st bs = .ack ↔ st = .ack ∧ bs.length = n := by
  cases st <;> simp [readStatus]

theorem busWrite_answered {b : Byte} {s : State} {st : BusStatus} {bs : List Byte}
    (h : s.nextAnswer = .answered st bs) : busWrite b s = .ok st (s.after 1 [.write b st]) := by
  simp [busWrite, h]

theorem busWrite_never {b : Byte} {s : State} (h : s.nextAnswer = .never) :
    busWrite b s = .stop (.busNeverCompletes (exchange (.write b))) := by
  simp [busWrite, h]

theorem busRead_answered {n : Nat} {s : State} {st : BusStatus} {bs : List Byte}
    (h : s.nextAnswer = .answered st bs) :
    busRead n s = .ok (readStatus n st bs, bs) (s.after 1 [.read n (readStatus n st bs) bs]) := by
  simp [busRead, h]

theorem busRead_never {n : Nat} {s : State} (h : s.nextAnswer = .never) :
    busRead n s = .stop (.busNeverCompletes (exchange (.read n))) := by
  simp [busRead, h]

theorem busProbe_answered {s : State} {st : BusStatus} {bs : List Byte}
    (h : s.nextAnswer = .answered st bs) : busProbe s = .ok st (s.after 1 [.probe st]) := by
  simp [busProbe, h]

theorem busProbe_never {s : State} (h : s.nextAnswer = .never) :
    busProbe s = .stop (.busNeverCompletes (exchange .probe)) := by
  simp [busProbe, h]

theorem checkedWrite_answered {b : Byte} {s : State} {st : BusStatus} {bs : List Byte}
    (h : s.nextAnswer = .answered st bs) :
    checkedWrite b s = check st (s.after 1 [.write b st]) := by
  simp [checkedWrite, busWrite_answered h]

theorem checkedWrite_never {b : Byte} {s : State} (h : s.nextAnswer = .never) :
    checkedWrite b s = .stop (.busNeverCompletes (exchange (.write b))) := by
  simp [checkedWrite, busWrite_never h]

theorem checkedRead_answered {n : Nat} {s : State} {st : BusStatus} {bs : List Byte}
    (h : s.nextAnswer = .answered st bs) :
    checkedRead n s = (check (readStatus n st bs) (s.after 1 [.read n (readStatus n st bs) bs])).andThen
      fun _ s => .ok bs s := by
  simp [checkedRead, busRead_answered h]

theorem checkedRead_never {n : Nat} {s : State} (h : s.nextAnswer = .never) :
    checkedRead n s = .stop (.busNeverCompletes (exchange (.read n))) := by
  simp [checkedRead, busRead_never h]

/-! ### Every answer at once -/

/-- The error a status that is not ACK is reported as (R56). -/
def errorOf : BusStatus → ErrorKind
  | .nack => .noAcknowledge
  | .ack => .transferError
  | .err => .transferError

theorem check_not_ack {st : BusStatus} (h : st ≠ .ack) (s : State) : check st s = .fail (errorOf st) s := by
  cases st <;> simp_all [errorOf]

/-- `r` is an end of a sequence of exchanges begun in `s`: it took answers and recorded events that meet `E`, its result (if it
has one) meets `P`, its error (if it has one) is a bus error, and if it stopped an exchange was never completed. -/
def Res.IsBus {α : Type} (E : Event → Prop) (s : State) (P : α → Prop) (r : Res α) : Prop :=
  match r with
  | .ok a s' => P a ∧ ∃ k es, s' = s.after k es ∧ ∀ e ∈ es, E e
  | .fail e s' => e ≠ .crcError ∧ ∃ k es, s' = s.after k es ∧ ∀ e ∈ es, E e
  | .stop f => ∃ k kind, f = .busNeverCompletes (exchange kind) ∧ s.answerAt k = .never

section
variable {E : Event → Prop}

theorem IsBus.ok {α : Type} {P : α → Prop} {a : α} (s : State) (h : P a) : Res.IsBus E s P (.ok a s) :=
  ⟨h, 0, [], by simp⟩

theorem IsBus.fail {α : Type} {P : α → Prop} {e : ErrorKind} (s : State) (h : e ≠ .crcError) :
    Res.IsBus E s P (.fail e s) :=
  ⟨h, 0, [], by simp⟩

theorem IsBus.after {α : Type} {P : α → Prop} {s : State} {k : Nat} {es : List Event} {r : Res α}
    (hes : ∀ e ∈ es, E e) (h : Res.IsBus E (s.after k es) P r) : Res.IsBus E s P r := by
  have both : ∀ fs : List Event, (∀ e ∈ fs, E e) → ∀ e ∈ es ++ fs, E e := fun fs hfs e he =>
    (List.mem_append.mp he).elim (hes e) (hfs e)
  match r, h with
  | .ok a s', ⟨ha, l, fs, hs, hfs⟩ => exact ⟨ha, k + l, es ++ fs, by simp [hs], both fs hfs⟩
  | .fail e s', ⟨ha, l, fs, hs, hfs⟩ => exact ⟨ha, k + l, es ++ fs, by simp [hs], both fs hfs⟩
  | .stop f, ⟨l, kind, hf, hl⟩ => exact ⟨k + l, kind, hf, by simpa using hl⟩

/-- Sequencing: the second part may be looked at from the state the first part left. -/
theorem IsBus.andThen {α β : Type} {P : α → Prop} {Q : β → Prop} {s : State} {r : Res α}
    {f : α → State → Res β} (h : Res.IsBus E s P r)
    (hf : ∀ a k es, P a → Res.IsBus E (s.after k es) Q (f a (s.after k es))) :
    Res.IsBus E s Q (r.andThen f) := by
  match r, h with
  | .ok a _, ⟨ha, k, es, rfl, hes⟩ => exact IsBus.after hes (hf a k es ha)
  | .fail _ _, h => exact h
  | .stop _, h => exact h

theorem check_isBus {st : BusStatus} {s : State} : Res.IsBus E s (fun _ => st = .ack) (check st s) := by
  cases st
  · exact IsBus.ok s rfl
  · exact IsBus.fail s (by simp)
  · exact IsBus.fail s (by simp)

theorem checkedWrite_isBus {b : Byte} (hE : ∀ st, E (.write b st)) (s : State) :
    Res.IsBus E s (fun _ => True) (checkedWrite b s) := by
  cases h : s.nextAnswer with
  | answered st bs =>
    rw [checkedWrite_answered h]
    refine IsBus.after (k := 1) (es := [.write b st]) (by simpa using hE st) ?_
    cases st
    · exact IsBus.ok _ trivial
    · exact IsBus.fail _ (by simp)
    · exact IsBus.fail _ (by simp)
  | never =>
    rw [checkedWrite_never h]
    exact ⟨0, _, rfl, by rw [← nextAnswer_eq]; exact h⟩

theorem checkedRead_isBus {n : Nat} (hE : ∀ st bs, (st = .ack → bs.length = n) → E (.read n st bs))
    (s : State) : Res.IsBus E s (fun bs => bs.length = n) (checkedRead n s) := by
  cases h : s.nextAnswer with
  | answered st bs =>
    rw [checkedRead_answered h]
    refine IsBus.after (k := 1) (es := [.read n (readStatus n st bs) bs]) ?_ ?_
    · simpa using hE _ bs fun hst => ((readStatus_ack_iff n st bs).mp hst).2
    · cases hst : readStatus n st bs
      · exact IsBus.ok _ ((readStatus_ack_iff n st bs).mp hst).2
      · exact IsBus.fail _ (by simp)
      · exact IsBus.fail _ (by simp)
  | never =>
    rw [checkedRead_never h]
    exact ⟨0, _, rfl, by rw [← nextAnswer_eq]; exact h⟩

theorem busProbe_isBus (hE : ∀ st, E (.probe st)) (s : State) :
    Res.IsBus E s (fun _ => True) (busProbe s) := by
  cases h : s.nextAnswer with
  | answered st bs =>
    rw [busProbe_answered h]
    exact ⟨trivial, 1, [.probe st], rfl, by simpa using hE st⟩
  | never =>
    rw [busProbe_never h]
    exact ⟨0, _, rfl, by rw [← nextAnswer_eq]; exact h⟩

/-- The events a word read may record meet `E`. -/
def AllowsFetch (E : Event → Prop) : Prop :=
  (∀ slot st, E (.write (promCommand slot) st)) ∧
  (∀ st bs, (st = .ack → bs.length = 2) → E (.read 2 st bs))

theorem readWord_isBus (hE : AllowsFetch E) (slot : BitVec 3) (s : State) :
    Res.IsBus E s (fun _ => True) (readWord slot s) := by
  refine IsBus.andThen (checkedWrite_isBus (hE.1 slot) s) fun _ k es _ => ?_
  refine IsBus.andThen (checkedRead_isBus hE.2 _) fun _ k es _ => ?_
  exact IsBus.ok _ trivial

theorem fetchSlots_isBus (hE : AllowsFetch E) (slots : List (BitVec 3)) (staging : Table) (s : State) :
    Res.IsBus E s (fun _ => True) (fetchSlots slots staging s) := by
  induction slots generalizing staging s with
  | nil => exact IsBus.ok s trivial
  | cons slot slots ih => exact IsBus.andThen (readWord_isBus hE slot s) fun w k es _ => ih _ _

/-- The events a conversion at a resolution may record meet `E`. -/
def AllowsConvert (E : Event → Prop) (code : BitVec 3) : Prop :=
  (∀ st, E (.write (convCommand code Config.convBaseT) st)) ∧
  (∀ st, E (.write (convCommand code Config.convBaseP) st)) ∧
  E (.wait (Config.convWaitMs code)) ∧ (∀ st, E (.write Config.cmdAdcRead st)) ∧
  (∀ st bs, (st = .ack → bs.length = 3) → E (.read 3 st bs))

theorem convert_isBus {base : Byte} {s : State} (hE : AllowsConvert E s.osr)
    (hbase : base = Config.convBaseT ∨ base = Config.convBaseP) :
    Res.IsBus E s (fun _ => True) (convert base s) := by
  obtain ⟨hT, hP, hwait, hselect, hread⟩ := hE
  have hstart : ∀ st, E (.write (convCommand s.osr base) st) := by
    rcases hbase with rfl | rfl
    · exact hT
    · exact hP
  refine IsBus.andThen (checkedWrite_isBus hstart s) fun _ k es _ => ?_
  simp only [busWait_eq_after, after_osr]
  refine IsBus.andThen (P := fun _ => True) ?_ fun _ k es _ => ?_
  · exact IsBus.after (k := 0) (es := [.wait (Config.convWaitMs s.osr)]) (by simpa using hwait)
      (checkedWrite_isBus hselect _)
  · exact IsBus.andThen (checkedRead_isBus hread _) fun _ k es _ => IsBus.ok _ trivial

/-- READTP's two conversions and the zero guard. -/
theorem measure_isBus {s : State} (hE : AllowsConvert E s.osr) :
    Res.IsBus E s (fun _ => True) ((convert Config.convBaseT s).andThen fun d2 s =>
      (convert Config.convBaseP s).andThen fun d1 s =>
      (zeroGuard d2 d1 s).andThen fun _ s => .ok (d2, d1) s) := by
  refine IsBus.andThen (convert_isBus hE (.inl rfl)) fun d2 k es _ => ?_
  refine IsBus.andThen (convert_isBus hE (.inr rfl)) fun d1 k es _ => ?_
  unfold zeroGuard
  split
  · exact IsBus.fail _ (by simp)
  · exact IsBus.ok _ trivial

/-- All that EnsureLoaded can do (R68): return at once with the cache; commit a fetched table whose CRC matches; fail, or stop,
with the store as it was. -/
theorem ensureLoaded_cases (hE : AllowsFetch E) (s : State) :
    (s.valid = true ∧ ensureLoaded s = .ok () s) ∨
    (s.valid = false ∧ ∃ k es t, (∀ e ∈ es, E e) ∧ crcOk t = true ∧
      ensureLoaded s = .ok () ((s.after k es).commit t)) ∨
    (s.valid = false ∧ ∃ k es e, (∀ e ∈ es, E e) ∧ ensureLoaded s = .fail e (s.after k es)) ∨
    (s.valid = false ∧ ∃ k kind, s.answerAt k = .never ∧
      ensureLoaded s = .stop (.busNeverCompletes (exchange kind))) := by
  cases hv : s.valid with
  | true => exact .inl ⟨rfl, by simp [ensureLoaded, hv]⟩
  | false =>
    have hbus := fetchSlots_isBus hE allSlots emptyStaging s
    simp only [ensureLoaded, hv]
    match hr : fetchSlots allSlots emptyStaging s, hbus with
    | .ok t _, ⟨_, k, es, rfl, hes⟩ =>
      cases hcrc : crcOk t with
      | true => exact .inr (.inl ⟨trivial, k, es, t, hes, hcrc, by simp [validate, hcrc]⟩)
      | false => exact .inr (.inr (.inl ⟨trivial, k, es, .crcError, hes, by simp [validate, hcrc]⟩))
    | .fail e _, ⟨_, k, es, rfl, hes⟩ => exact .inr (.inr (.inl ⟨trivial, k, es, e, hes, by simp⟩))
    | .stop f, ⟨k, kind, hf, hk⟩ => exact .inr (.inr (.inr ⟨trivial, k, kind, hk, by simp [hf]⟩))

end

/-! ### The events of the rules -/

theorem allowsFetch_lawful : AllowsFetch Event.lawful :=
  ⟨fun slot _ => .inl ⟨slot, rfl⟩, fun _ _ h => ⟨.inl rfl, h⟩⟩

theorem allowsConvert_lawful {code : BitVec 3} (h : code.toNat ≤ 5) : AllowsConvert Event.lawful code :=
  ⟨fun _ => .inr (.inl ⟨code, h, .inl rfl⟩), fun _ => .inr (.inl ⟨code, h, .inr rfl⟩), ⟨code, h, rfl⟩,
    fun _ => .inr (.inr (.inl rfl)), fun _ _ h => ⟨.inr rfl, h⟩⟩

theorem allowsFetch_true : AllowsFetch fun _ => True := ⟨fun _ _ => trivial, fun _ _ _ => trivial⟩

theorem allowsConvert_true (code : BitVec 3) : AllowsConvert (fun _ => True) code :=
  ⟨fun _ => trivial, fun _ => trivial, trivial, fun _ => trivial, fun _ _ _ => trivial⟩

/-! ### Sequences that are answered well -/

theorem readWord_delivered {s : State} {w : Word} {k : Nat} {es : List Event} (slot : BitVec 3)
    (h0 : s.ackAt k) (h1 : s.answerAt (k + 1) = .answered .ack (bytes16 w)) :
    readWord slot (s.after k es) =
      .ok w (s.after (k + 2) (es ++ [.write (promCommand slot) .ack, .read 2 .ack (bytes16 w)])) := by
  obtain ⟨j, hj⟩ := h0
  have hw := (nextAnswer_after s k es).trans hj
  have hr : ∀ fs, (s.after (k + 1) fs).nextAnswer = _ := fun fs => (nextAnswer_after s (k + 1) fs).trans h1
  simp [readWord, checkedWrite_answered hw, checkedRead_answered (hr _), readStatus]
  exact be16_of_bytes w

/-- LOAD's loop when the device delivers a table. -/
theorem fetchSlots_delivered {s : State} {t : Table} (h : s.delivers t) :
    fetchSlots allSlots emptyStaging s = .ok t (s.after 16 (fetchEvents t)) := by
  have word : ∀ (slot : BitVec 3) es, readWord slot (s.after (2 * slot.toNat) es) =
      .ok (slotOf t slot) (s.after (2 * slot.toNat + 2) (es ++ wordEvents t slot)) :=
    fun slot es => readWord_delivered slot (h slot).1 (h slot).2
  have e0 : readWord 0#3 s = .ok (slotOf t 0#3) (s.after 2 (wordEvents t 0#3)) := by simpa using word 0#3 []
  have e1 : ∀ es, readWord 1#3 (s.after 2 es) = .ok (slotOf t 1#3) (s.after 4 (es ++ wordEvents t 1#3)) := word 1#3
  have e2 : ∀ es, readWord 2#3 (s.after 4 es) = .ok (slotOf t 2#3) (s.after 6 (es ++ wordEvents t 2#3)) := word 2#3
  have e3 : ∀ es, readWord 3#3 (s.after 6 es) = .ok (slotOf t 3#3) (s.after 8 (es ++ wordEvents t 3#3)) := word 3#3
  have e4 : ∀ es, readWord 4#3 (s.after 8 es) = .ok (slotOf t 4#3) (s.after 10 (es ++ wordEvents t 4#3)) := word 4#3
  have e5 : ∀ es, readWord 5#3 (s.after 10 es) = .ok (slotOf t 5#3) (s.after 12 (es ++ wordEvents t 5#3)) := word 5#3
  have e6 : ∀ es, readWord 6#3 (s.after 12 es) = .ok (slotOf t 6#3) (s.after 14 (es ++ wordEvents t 6#3)) := word 6#3
  have e7 : ∀ es, readWord 7#3 (s.after 14 es) = .ok (slotOf t 7#3) (s.after 16 (es ++ wordEvents t 7#3)) := word 7#3
  have ht : setSlot (setSlot (setSlot (setSlot (setSlot (setSlot (setSlot (setSlot emptyStaging 0#3 (slotOf t 0#3))
      1#3 (slotOf t 1#3)) 2#3 (slotOf t 2#3)) 3#3 (slotOf t 3#3)) 4#3 (slotOf t 4#3)) 5#3 (slotOf t 5#3))
      6#3 (slotOf t 6#3)) 7#3 (slotOf t 7#3) = t := by
    conv_rhs => rw [← table_of_slots t]
    rfl
  simp only [fetchSlots, allSlots, e0, e1, e2, e3, e4, e5, e6, e7, ok_andThen, ht, fetchEvents,
    List.flatMap_cons, List.flatMap_nil, List.append_assoc, List.append_nil]

theorem convert_delivered {s : State} {d : RawCount} {k : Nat} {es : List Event} (base : Byte)
    (h : s.deliversCount k d) :
    convert base (s.after k es) = .ok d (s.after (k + 3) (es ++ convEvents s.osr base d)) := by
  obtain ⟨⟨j, hj⟩, ⟨j', hj'⟩, hr⟩ := h
  have h0 := (nextAnswer_after s k es).trans hj
  have h1 : ∀ fs, (s.after (k + 1) fs).nextAnswer = _ := fun fs => (nextAnswer_after s (k + 1) fs).trans hj'
  have h2 : ∀ fs, (s.after (k + 2) fs).nextAnswer = _ := fun fs => (nextAnswer_after s (k + 2) fs).trans hr
  simp [convert, checkedWrite_answered h0, checkedWrite_answered (h1 _), checkedRead_answered (h2 _), readStatus,
    convEvents, Config.cmdAdcRead]
  exact be24_of_bytes d

/-! ### The store -/

theorem readStore_some {s : State} {t : Table} (hv : s.valid = true) (hp : s.prom = some t) :
    readStore s = .ok t s := by
  simp [readStore, hv, hp]

theorem readStore_invalid {s : State} (hv : s.valid = false) : readStore s = .stop .notValidated := by
  cases hp : s.prom <;> simp [readStore, hv, hp]

end Sys2Proof.Machine
end

