-- ==== Sys2Proof/Laws/Exchanges.lean ====
section
/-! SUPPORT. How a sequence of exchanges runs, by its answers: it goes on while they are good, stops at the first exchange that is
never answered, and fails at the first that is answered otherwise. Exactly one of the three happens. -/

namespace Sys2Proof.Machine

/-! ### The answers -/

theorem answersWell_nil (s : State) : s.answersWell [] := by
  intro j kind h
  simp at h

theorem answersWell_append {s : State} {es fs : List ExchangeKind} {events : List Event} :
    s.answersWell (es ++ fs) ↔ s.answersWell es ∧ (s.after es.length events).answersWell fs := by
  constructor
  · intro h
    refine ⟨fun j kind hj => h j kind ?_, fun j kind hj => ?_⟩
    · rw [List.getElem?_append_left (List.getElem?_eq_some_iff.mp hj).1, hj]
    · rw [answerAt_after]
      exact h _ kind (by rw [List.getElem?_append_right (by omega)]; simpa using hj)
  · rintro ⟨h1, h2⟩ j kind hj
    by_cases hlt : j < es.length
    · exact h1 j kind (by rwa [List.getElem?_append_left hlt] at hj)
    · have := h2 (j - es.length) kind (by rwa [List.getElem?_append_right (by omega)] at hj)
      rwa [answerAt_after, Nat.add_sub_cancel' (by omega)] at this

/-- Either all the exchanges are answered well, or there is a first that is not. -/
theorem answersWell_or_first (s : State) (es : List ExchangeKind) :
    s.answersWell es ∨ ∃ k kind, es[k]? = some kind ∧ s.answersWell (es.take k) ∧ ¬ kind.goesOn (s.answerAt k) := by
  induction es using List.reverseRecOn with
  | nil => exact .inl (answersWell_nil s)
  | append_singleton es e ih =>
    rcases ih with h | ⟨k, kind, hk, hb, hn⟩
    · by_cases he : e.goesOn (s.answerAt es.length)
      · refine .inl (answersWell_append (events := []).mpr ⟨h, fun j kind hj => ?_⟩)
        obtain ⟨hj0, rfl⟩ : j = 0 ∧ e = kind := by
          cases j <;> simp at hj
          exact ⟨rfl, hj⟩
        subst hj0
        simpa using he
      · exact .inr ⟨es.length, e, by simp, by simpa using h, he⟩
    · have hlt := (List.getElem?_eq_some_iff.mp hk).1
      exact .inr ⟨k, kind, by rw [List.getElem?_append_left hlt, hk],
        by rwa [List.take_append_of_le_length (by omega)], hn⟩

theorem slot_cases (slot : BitVec 3) :
    slot = 0 ∨ slot = 1 ∨ slot = 2 ∨ slot = 3 ∨ slot = 4 ∨ slot = 5 ∨ slot = 6 ∨ slot = 7 := by
  revert slot
  decide

/-- A fetch whose exchanges are all answered well delivers a table. -/
theorem delivers_of_answersWell {s : State} (h : s.answersWell fetchExchanges) : ∃ t, s.delivers t := by
  have word : ∀ slot : BitVec 3, s.ackAt (2 * slot.toNat) ∧
      ∃ w, s.answerAt (2 * slot.toNat + 1) = .answered .ack (bytes16 w) := by
    intro slot
    have hwrite := h (2 * slot.toNat) (.write (promCommand slot)) (by
      rcases slot_cases slot with rfl | rfl | rfl | rfl | rfl | rfl | rfl | rfl <;> rfl)
    have hread := h (2 * slot.toNat + 1) (.read 2) (by
      rcases slot_cases slot with rfl | rfl | rfl | rfl | rfl | rfl | rfl | rfl <;> rfl)
    constructor
    · cases ha : s.answerAt (2 * slot.toNat) with
      | never => simp [ha, ExchangeKind.goesOn] at hwrite
      | answered st bytes =>
        simp only [ha, ExchangeKind.goesOn, exchangeStatus] at hwrite
        exact ⟨bytes, hwrite ▸ ha⟩
    · cases ha : s.answerAt (2 * slot.toNat + 1) with
      | never => simp [ha, ExchangeKind.goesOn] at hread
      | answered st bytes =>
        simp only [ha, ExchangeKind.goesOn, exchangeStatus, readStatus_ack_iff] at hread
        obtain ⟨rfl, hlen⟩ := hread
        match bytes, hlen with
        | [b0, b1], _ => exact ⟨be16 b0 b1, by rw [bytes16_be16]⟩
  choose ack w hw using word
  refine ⟨#v[w 0, w 1, w 2, w 3, w 4, w 5, w 6, w 7], fun slot => ⟨ack slot, ?_⟩⟩
  rw [hw]
  rcases slot_cases slot with rfl | rfl | rfl | rfl | rfl | rfl | rfl | rfl <;> rfl

/-! ### A sequence that makes given exchanges -/

/-- `r` is what a sequence that makes the exchanges `es` from `s` comes to. -/
structure Res.Makes {α : Type} (es : List ExchangeKind) (s : State) (r : Res α) : Prop where
  /-- All answered well: a result. -/
  goesOn : s.answersWell es → ∃ a events, r = .ok a (s.after es.length events)
  /-- One never answered: stuck on it. -/
  stuck : ∀ (k : Nat) (kind : ExchangeKind), es[k]? = some kind → s.answersWell (es.take k) → s.answerAt k = .never →
    r = .stop (.busNeverCompletes (exchange kind))
  /-- One answered otherwise: an error. -/
  fails : ∀ (k : Nat) (kind : ExchangeKind), es[k]? = some kind → s.answersWell (es.take k) →
    s.answerAt k ≠ .never → ¬ kind.goesOn (s.answerAt k) → ∃ e s', r = .fail e s'

/-- A sequence that is stuck is stuck on one of its exchanges. -/
theorem Res.Makes.stop_inv {α : Type} {es : List ExchangeKind} {s : State} {r : Res α} (h : Res.Makes es s r)
    {f : Fault} (hf : r = .stop f) :
    ∃ k kind, f = .busNeverCompletes (exchange kind) ∧ es[k]? = some kind ∧ s.answersWell (es.take k) ∧
      s.answerAt k = .never := by
  subst hf
  rcases answersWell_or_first s es with hw | ⟨k, kind, hk, hb, hn⟩
  · obtain ⟨a, events, hr⟩ := h.goesOn hw
    cases hr
  · by_cases hnever : s.answerAt k = .never
    · have hr := h.stuck k kind hk hb hnever
      exact ⟨k, kind, by injection hr, hk, hb, hnever⟩
    · obtain ⟨e, s', hr⟩ := h.fails k kind hk hb hnever hn
      cases hr

/-- A sequence that has a result had all its exchanges answered well. -/
theorem Res.Makes.ok_inv {α : Type} {es : List ExchangeKind} {s s' : State} {r : Res α} {a : α}
    (h : Res.Makes es s r) (hr : r = .ok a s') : s.answersWell es ∧ ∃ events, s' = s.after es.length events := by
  subst hr
  rcases answersWell_or_first s es with hw | ⟨k, kind, hk, hb, hn⟩
  · obtain ⟨a', events, hr⟩ := h.goesOn hw
    cases hr
    exact ⟨hw, events, rfl⟩
  · by_cases hnever : s.answerAt k = .never
    · cases h.stuck k kind hk hb hnever
    · obtain ⟨e, s', hr⟩ := h.fails k kind hk hb hnever hn
      cases hr

@[simp] theorem finish_eq_fault (r : Res (List Byte)) (f : Fault) : r.finish = .fault f ↔ r = .stop f := by
  cases r <;> simp

/-- One exchange. -/
theorem Makes.single {α : Type} {kind : ExchangeKind} {s : State} {r : Res α}
    (good : kind.goesOn (s.answerAt 0) → ∃ a events, r = .ok a (s.after 1 events))
    (never : s.answerAt 0 = .never → r = .stop (.busNeverCompletes (exchange kind)))
    (bad : s.answerAt 0 ≠ .never → ¬ kind.goesOn (s.answerAt 0) → ∃ e s', r = .fail e s') :
    Res.Makes [kind] s r := by
  have only : ∀ {k : Nat} {kind' : ExchangeKind}, [kind][k]? = some kind' → k = 0 ∧ kind = kind' := by
    intro k kind' h
    cases k <;> simp at h
    exact ⟨rfl, h⟩
  refine ⟨fun h => good (h 0 kind rfl), fun k kind' hk _ hn => ?_, fun k kind' hk _ hn hg => ?_⟩
  · obtain ⟨rfl, rfl⟩ := only hk
    exact never hn
  · obtain ⟨rfl, rfl⟩ := only hk
    exact bad hn hg

/-- A part that makes no exchange and has a result. -/
theorem Makes.ok {α : Type} (a : α) (s : State) : Res.Makes [] s (.ok a s) :=
  ⟨fun _ => ⟨a, [], by simp⟩, fun k kind h => by simp at h, fun k kind h => by simp at h⟩

/-- Events recorded before a sequence change nothing in which exchanges it makes. -/
theorem Makes.recorded {α : Type} {es : List ExchangeKind} {s : State} {events : List Event} {r : Res α}
    (h : Res.Makes es (s.after 0 events) r) : Res.Makes es s r := by
  have answers : ∀ kinds, (s.after 0 events).answersWell kinds ↔ s.answersWell kinds := fun kinds => by
    simp [State.answersWell]
  refine ⟨fun hw => ?_, fun k kind hk hb hn => ?_, fun k kind hk hb hn hg => ?_⟩
  · obtain ⟨a, more, hr⟩ := h.goesOn ((answers _).mpr hw)
    exact ⟨a, events ++ more, by simpa using hr⟩
  · exact h.stuck k kind hk ((answers _).mpr hb) (by simpa using hn)
  · exact h.fails k kind hk ((answers _).mpr hb) (by simpa using hn) (by simpa using hg)

/-- One sequence after another. -/
theorem Makes.andThen {α β : Type} {es fs : List ExchangeKind} {s : State} {r : Res α} {f : α → State → Res β}
    (h : Res.Makes es s r)
    (hf : ∀ a events, Res.Makes fs (s.after es.length events) (f a (s.after es.length events))) :
    Res.Makes (es ++ fs) s (r.andThen f) := by
  have later : ∀ {k : Nat} {kind : ExchangeKind}, ¬ k < es.length → (es ++ fs)[k]? = some kind →
      s.answersWell ((es ++ fs).take k) → fs[k - es.length]? = some kind ∧ s.answersWell es ∧
      ∀ events, (s.after es.length events).answersWell (fs.take (k - es.length)) ∧
        (s.after es.length events).answerAt (k - es.length) = s.answerAt k := by
    intro k kind hlt hk hb
    rw [List.getElem?_append_right (by omega)] at hk
    rw [List.take_append, List.take_of_length_le (by omega)] at hb
    refine ⟨hk, (answersWell_append (events := []).mp hb).1, fun events => ⟨(answersWell_append.mp hb).2, ?_⟩⟩
    rw [answerAt_after, Nat.add_sub_cancel' (by omega)]
  have early : ∀ {k : Nat} {kind : ExchangeKind}, k < es.length → (es ++ fs)[k]? = some kind →
      s.answersWell ((es ++ fs).take k) → es[k]? = some kind ∧ s.answersWell (es.take k) := by
    intro k kind hlt hk hb
    rw [List.getElem?_append_left hlt] at hk
    rw [List.take_append_of_le_length (by omega)] at hb
    exact ⟨hk, hb⟩
  refine ⟨fun hw => ?_, fun k kind hk hb hn => ?_, fun k kind hk hb hn hg => ?_⟩
  · obtain ⟨a, events, rfl⟩ := h.goesOn (answersWell_append (events := []).mp hw).1
    obtain ⟨b, events', hb⟩ := (hf a events).goesOn (answersWell_append.mp hw).2
    exact ⟨b, events ++ events', by simp [hb]⟩
  · by_cases hlt : k < es.length
    · obtain ⟨hk', hb'⟩ := early hlt hk hb
      rw [h.stuck k kind hk' hb' hn, stop_andThen]
    · obtain ⟨hk', hw, hrest⟩ := later hlt hk hb
      obtain ⟨a, events, rfl⟩ := h.goesOn hw
      exact (hf a events).stuck _ kind hk' (hrest events).1 ((hrest events).2.trans hn)
  · by_cases hlt : k < es.length
    · obtain ⟨hk', hb'⟩ := early hlt hk hb
      obtain ⟨e, s', rfl⟩ := h.fails k kind hk' hb' hn hg
      exact ⟨e, s', rfl⟩
    · obtain ⟨hk', hw, hrest⟩ := later hlt hk hb
      obtain ⟨a, events, rfl⟩ := h.goesOn hw
      exact (hf a events).fails _ kind hk' (hrest events).1 (by rw [(hrest events).2]; exact hn)
        (by rw [(hrest events).2]; exact hg)

/-! ### The operations' sequences -/

theorem checkedWrite_makes (b : Byte) (s : State) : Res.Makes [.write b] s (checkedWrite b s) := by
  cases h : s.answerAt 0 with
  | answered st bytes =>
    rw [← nextAnswer_eq] at h
    refine Makes.single ?_ ?_ ?_ <;> rw [← nextAnswer_eq, h, checkedWrite_answered h] <;> cases st <;>
      simp [ExchangeKind.goesOn, exchangeStatus]
  | never =>
    refine Makes.single ?_ (fun _ => checkedWrite_never (by rw [nextAnswer_eq]; exact h)) ?_ <;>
      simp [h, ExchangeKind.goesOn]

theorem checkedRead_makes (n : Nat) (s : State) : Res.Makes [.read n] s (checkedRead n s) := by
  cases h : s.answerAt 0 with
  | answered st bytes =>
    rw [← nextAnswer_eq] at h
    refine Makes.single ?_ ?_ ?_ <;> rw [← nextAnswer_eq, h, checkedRead_answered h] <;>
      cases hst : readStatus n st bytes <;> simp [ExchangeKind.goesOn, exchangeStatus, hst]
  | never =>
    refine Makes.single ?_ (fun _ => checkedRead_never (by rw [nextAnswer_eq]; exact h)) ?_ <;>
      simp [h, ExchangeKind.goesOn]

theorem busProbe_makes_stuck {s : State} (h : s.answerAt 0 = .never) :
    busProbe s = .stop (.busNeverCompletes (exchange .probe)) :=
  busProbe_never (by rw [nextAnswer_eq]; exact h)

theorem readWord_makes (slot : BitVec 3) (s : State) :
    Res.Makes [.write (promCommand slot), .read 2] s (readWord slot s) := by
  refine Makes.andThen (es := [_]) (fs := [_] ++ []) (checkedWrite_makes _ s) fun _ _ => ?_
  exact Makes.andThen (checkedRead_makes 2 _) fun _ _ => Makes.ok _ _

theorem fetchSlots_makes (slots : List (BitVec 3)) (staging : Table) (s : State) :
    Res.Makes (slots.flatMap fun slot => [.write (promCommand slot), .read 2]) s (fetchSlots slots staging s) := by
  induction slots generalizing staging s with
  | nil => exact Makes.ok staging s
  | cons slot slots ih => exact Makes.andThen (es := [_, _]) (readWord_makes slot s) fun _ _ => ih _ _

theorem convert_makes (base : Byte) (s : State) :
    Res.Makes [.write (convCommand s.osr base), .write 0x00#8, .read 3] s (convert base s) := by
  refine Makes.andThen (es := [_]) (fs := [.write 0x00#8, .read 3]) (checkedWrite_makes _ s) fun _ events => ?_
  refine Makes.andThen (es := [_]) (fs := [_] ++ []) (Makes.recorded (events := [.wait (Config.convWaitMs s.osr)]) ?_) fun _ _ => ?_
  · simp only [busWait_eq_after, after_osr]
    exact checkedWrite_makes Config.cmdAdcRead _
  · exact Makes.andThen (checkedRead_makes 3 _) fun _ _ => Makes.ok _ _

/-- READTP's two conversions. -/
theorem measure_makes (s : State) :
    Res.Makes (measureExchanges s.osr) s ((convert Config.convBaseT s).andThen fun d2 s =>
      (convert Config.convBaseP s).andThen fun d1 s => .ok (d2, d1) s) := by
  refine Makes.andThen (es := [_, _, _]) (fs := [_, _, _] ++ []) (convert_makes _ s) fun _ events => ?_
  have second := convert_makes Config.convBaseP (s.after [ExchangeKind.write (convCommand s.osr Config.convBaseT),
    .write 0x00#8, .read 3].length events)
  rw [after_osr] at second
  exact Makes.andThen second fun _ _ => Makes.ok _ _

end Sys2Proof.Machine
end

