-- ==== Sys2Proof/Laws/Exec.lean ====
section
/-! SUPPORT. All that the meaning of an instruction can do, said once: `exec_cases`. The rules of the whole machine follow from it
by cases, without unfolding a meaning. -/

namespace Sys2Proof.Machine

/-- The ends an instruction's meaning can come to, the recorded events meeting `E`. -/
inductive ExecCase (E : Event → Prop) (i : Instr) (s : State) : Step → Prop where
  /-- A response, with answers taken and events recorded, and no other part of the block's state written. -/
  | responds (k : Nat) (es : List Event) (st : Status) (data : List Byte)
      (events : ∀ e ∈ es, E e)
      (len : data.length = if st = Status.ok then dataLength i else 0)
      (error : st ≠ .ok → i = .devreset ∨ i = .load ∨ i = .readtp)
      (crc : st = .error .crcError → (i = .load ∨ i = .readtp) ∧ s.valid = false)
      (quiet : usesBus i = false → k = 0 ∧ es = if i = .init then [.ini] else []) :
      ExecCase E i s (.next (respond st data (s.after k es)))
  /-- SETRES. -/
  | sets (code : BitVec 3) (instr : i = .setres code) (wf : code.toNat ≤ 5) :
      ExecCase E i s (.next (respond .ok [] (s.setOsr code)))
  /-- LOAD or READTP with a commit, after `k` answers and the events `es` and before `l` answers and the events `fs`. -/
  | commits (k : Nat) (es : List Event) (t : Table) (l : Nat) (fs : List Event) (st : Status) (data : List Byte)
      (instr : i = .load ∨ i = .readtp) (empty : s.valid = false) (ok : crcOk t = true)
      (before : ∀ e ∈ es, E e) (afterwards : ∀ e ∈ fs, E e)
      (len : data.length = if st = Status.ok then dataLength i else 0)
      (error : st ≠ .error .crcError) :
      ExecCase E i s (.next (respond st data (((s.after k es).commit t).after l fs)))
  /-- Stuck on an exchange. -/
  | stuck (k : Nat) (kind : ExchangeKind) (bus : usesBus i = true) (never : s.answerAt k = .never) :
      ExecCase E i s (.fault (.busNeverCompletes (exchange kind)))
  /-- COMP or READPROM without a validated table. -/
  | notValidated (instr : readsStore i = true) (unset : s.valid = false ∨ s.prom = none) :
      ExecCase E i s (.fault .notValidated)
  /-- READTP with `VALID = 1` and no table: no run reaches such a state. -/
  | inconsistent (instr : i = .readtp) (valid : s.valid = true) (unset : s.prom = none) :
      ExecCase E i s (.fault .notValidated)
  /-- SETRES with a reserved code. -/
  | refused (code : BitVec 3) (instr : i = .setres code) (reserved : ¬ code.toNat ≤ 5) :
      ExecCase E i s (.refused .reservedResolution)

/-- The events the operations may record at the state's resolution meet `E`. -/
structure AllowsAll (E : Event → Prop) (code : BitVec 3) : Prop where
  fetch : AllowsFetch E
  convert : AllowsConvert E code
  reset : ∀ st, E (.write Config.cmdReset st)
  probe : ∀ st, E (.probe st)
  ini : E .ini

theorem allowsAll_true (code : BitVec 3) : AllowsAll (fun _ => True) code :=
  ⟨allowsFetch_true, allowsConvert_true code, fun _ => trivial, fun _ => trivial, trivial⟩

theorem allowsAll_lawful {code : BitVec 3} (h : code.toNat ≤ 5) : AllowsAll Event.lawful code :=
  ⟨allowsFetch_lawful, allowsConvert_lawful h, fun _ => .inr (.inr (.inr rfl)), fun _ => trivial, trivial⟩

@[simp] theorem outputBytes_length (out : Int × Int) : (outputBytes out).length = 8 := rfl

variable {E : Event → Prop} {s : State}

theorem execProbe_cases (hE : AllowsAll E s.osr) : ExecCase E .probe s (execProbe s) := by
  cases h : s.nextAnswer with
  | answered st bs =>
    have := ExecCase.responds (E := E) (i := .probe) (s := s) 1 [.probe st] .ok [connectedByte (st == .ack)]
      (by simpa using hE.probe st) rfl (by simp) (by simp) (by simp [usesBus])
    simpa [execProbe, busProbe_answered h] using this
  | never =>
    have := ExecCase.stuck (E := E) (i := .probe) (s := s) 0 .probe rfl (by rw [← nextAnswer_eq]; exact h)
    simpa [execProbe, busProbe_never h] using this

theorem execDevreset_cases (hE : AllowsAll E s.osr) : ExecCase E .devreset s (execDevreset s) := by
  have hbus := checkedWrite_isBus hE.reset s
  unfold execDevreset
  match checkedWrite Config.cmdReset s, hbus with
  | .ok () _, ⟨_, k, es, rfl, hes⟩ =>
    exact .responds k es .ok [] hes rfl (by simp) (by simp) (by simp [usesBus])
  | .fail e _, ⟨he, k, es, rfl, hes⟩ =>
    exact .responds k es (.error e) [] hes rfl (by simp) (by simp [he]) (by simp [usesBus])
  | .stop _, ⟨k, kind, hf, hk⟩ =>
    subst hf
    exact .stuck k kind rfl hk

theorem execLoad_cases (hE : AllowsAll E s.osr) : ExecCase E .load s (execLoad s) := by
  unfold execLoad
  rcases ensureLoaded_cases hE.fetch s with
    ⟨hv, h⟩ | ⟨hv, k, es, t, hes, ht, h⟩ | ⟨hv, k, es, e, hes, h⟩ | ⟨hv, k, kind, hk, h⟩ <;> rw [h]
  · have := ExecCase.responds (E := E) (i := .load) (s := s) 0 [] .ok [] (by simp) rfl (by simp) (by simp)
      (by simp [usesBus])
    simpa using this
  · have := ExecCase.commits (E := E) (i := .load) (s := s) k es t 0 [] .ok [] (.inl rfl) hv ht hes (by simp) rfl
      (by simp)
    simpa using this
  · exact .responds k es (.error e) [] hes rfl (by simp) (by simp [hv]) (by simp [usesBus])
  · exact .stuck k kind rfl hk

theorem execReadtp_eq (s : State) :
    execReadtp s = ((ensureLoaded s).andThen fun _ s =>
      ((convert Config.convBaseT s).andThen fun d2 s =>
        (convert Config.convBaseP s).andThen fun d1 s =>
        (zeroGuard d2 d1 s).andThen fun _ s => .ok (d2, d1) s).andThen fun d s =>
      (readStore s).andThen fun t s => .ok (outputBytes (compensate d.1 d.2 t)) s).finish := by
  simp [execReadtp, andThen_assoc]

theorem execReadtp_cases (hE : AllowsAll E s.osr) : ExecCase E .readtp s (execReadtp s) := by
  rw [execReadtp_eq]
  rcases ensureLoaded_cases hE.fetch s with
    ⟨hv, h⟩ | ⟨hv, k, es, t, hes, ht, h⟩ | ⟨hv, k, es, e, hes, h⟩ | ⟨hv, k, kind, hk, h⟩ <;> rw [h]
  · have hbus := measure_isBus hE.convert
    simp only [ok_andThen]
    match (convert Config.convBaseT s).andThen fun d2 s => (convert Config.convBaseP s).andThen fun d1 s =>
        (zeroGuard d2 d1 s).andThen fun _ s => .ok (d2, d1) s, hbus with
    | .ok d _, ⟨_, k, es, rfl, hes⟩ =>
      cases hp : s.prom with
      | none =>
        simp only [ok_andThen, readStore, after_valid, after_prom, hv, hp, stop_andThen, finish_stop]
        exact .inconsistent rfl hv hp
      | some t =>
        simp only [ok_andThen, readStore, after_valid, after_prom, hv, hp, finish_ok]
        exact .responds k es .ok _ hes rfl (by simp) (by simp) (by simp [usesBus])
    | .fail e _, ⟨he, k, es, rfl, hes⟩ =>
      exact .responds k es (.error e) [] hes rfl (by simp) (by simp [he]) (by simp [usesBus])
    | .stop _, ⟨k, kind, hf, hk⟩ =>
      subst hf
      exact .stuck k kind rfl hk
  · have hbus := measure_isBus (s := (s.after k es).commit t) hE.convert
    simp only [ok_andThen]
    match (convert Config.convBaseT ((s.after k es).commit t)).andThen fun d2 s =>
        (convert Config.convBaseP s).andThen fun d1 s =>
        (zeroGuard d2 d1 s).andThen fun _ s => .ok (d2, d1) s, hbus with
    | .ok d _, ⟨_, l, fs, rfl, hfs⟩ =>
      exact .commits k es t l fs .ok _ (.inr rfl) hv ht hes hfs rfl (by simp)
    | .fail e _, ⟨he, l, fs, rfl, hfs⟩ =>
      exact .commits k es t l fs (.error e) [] (.inr rfl) hv ht hes hfs rfl (by simp [he])
    | .stop _, ⟨l, kind, hf, hl⟩ =>
      subst hf
      exact .stuck (k + l) kind rfl (by rw [← answerAt_after s k l es]; exact hl)
  · exact .responds k es (.error e) [] hes rfl (by simp) (by simp [hv]) (by simp [usesBus])
  · exact .stuck k kind rfl hk

theorem readStore_cases (s : State) :
    (∃ t, s.valid = true ∧ s.prom = some t ∧ readStore s = .ok t s) ∨
    ((s.valid = false ∨ s.prom = none) ∧ readStore s = .stop .notValidated) := by
  cases hv : s.valid <;> cases hp : s.prom <;> simp [readStore, hv, hp]

/-- All that an instruction can do. -/
theorem exec_cases (hE : AllowsAll E s.osr) (i : Instr) : ExecCase E i s (exec i s) := by
  cases i with
  | init =>
    have := ExecCase.responds (E := E) (i := .init) (s := s) 0 [.ini] .ok [] (by simpa using hE.ini) rfl (by simp)
      (by simp) (by simp)
    simpa [exec, execInit] using this
  | probe => exact execProbe_cases hE
  | devreset => exact execDevreset_cases hE
  | setres code =>
    by_cases hc : code.toNat ≤ 5
    · simp only [exec, execSetres, hc, if_true]
      exact .sets code rfl hc
    · simp only [exec, execSetres, hc, if_false]
      exact .refused code rfl hc
  | load => exact execLoad_cases hE
  | crcchk t =>
    have := ExecCase.responds (E := E) (i := .crcchk t) (s := s) 0 [] .ok [crcByte (crc4 t) (crcOk t)] (by simp) rfl
      (by simp) (by simp) (by simp)
    simpa [exec, execCrcchk] using this
  | comp d2 d1 =>
    simp only [exec, execComp]
    rcases readStore_cases s with ⟨t, _, _, h⟩ | ⟨hu, h⟩ <;> rw [h]
    · have := ExecCase.responds (E := E) (i := .comp d2 d1) (s := s) 0 [] .ok (outputBytes (compensate d2 d1 t))
        (by simp) rfl (by simp) (by simp) (by simp)
      simpa using this
    · exact .notValidated rfl hu
  | readtp => exact execReadtp_cases hE
  | readprom slot =>
    simp only [exec, execReadprom]
    rcases readStore_cases s with ⟨t, _, _, h⟩ | ⟨hu, h⟩ <;> rw [h]
    · have := ExecCase.responds (E := E) (i := .readprom slot) (s := s) 0 [] .ok (bytes16 (slotOf t slot)) (by simp)
        rfl (by simp) (by simp) (by simp)
      simpa using this
    · exact .notValidated rfl hu

end Sys2Proof.Machine
end

