-- ==== Sys2Proof/Laws/PerInstr.lean ====
section
/-! SUPPORT. Statements made of each instruction, one lemma per constructor. Family EncodeShape: the encoding's header has `z = 0`
and the encoding is as long as its header says (R37, R38, R44). -/

namespace Sys2Proof.Laws.EncodeShape

/-- An instruction's encoding starts with a header of `z = 0` whose length rule gives the encoding's length. -/
def Statement (i : Instr) : Prop :=
  ∃ (h : Byte) (payload : List Byte), encode i = h :: payload ∧ headerZ h = false ∧
    (encode i).length = requestLength h

theorem init : Statement .init := ⟨_, _, rfl, by decide, by decide⟩

theorem probe : Statement .probe := ⟨_, _, rfl, by decide, by decide⟩

theorem devreset : Statement .devreset := ⟨_, _, rfl, by decide, by decide⟩

theorem setres (code : BitVec 3) : Statement (.setres code) := by
  refine ⟨_, _, rfl, (header_fields 0x4#4 code).2.1, ?_⟩
  simp [encode, requestLength, header_fields]

theorem load : Statement .load := ⟨_, _, rfl, by decide, by decide⟩

theorem crcchk (table : Table) : Statement (.crcchk table) := by
  refine ⟨_, _, rfl, by decide, ?_⟩
  simp [encode, table_toList, requestLength, header_fields]

theorem comp (d2 d1 : RawCount) : Statement (.comp d2 d1) := by
  refine ⟨_, _, rfl, by decide, ?_⟩
  simp [encode, requestLength, header_fields]

theorem readtp : Statement .readtp := ⟨_, _, rfl, by decide, by decide⟩

theorem readprom (slot : BitVec 3) : Statement (.readprom slot) := by
  refine ⟨_, _, rfl, (header_fields 0x9#4 slot).2.1, ?_⟩
  simp [encode, requestLength, header_fields]

end Sys2Proof.Laws.EncodeShape
end

