-- ==== Sys2Proof/Laws/Pipeline.lean ====
section
/-! SUPPORT. The floor shift said as two inequalities, and the pipeline's values as equations, so that no later proof unfolds the
pipeline. -/

namespace Sys2Proof.Machine

/-- The arithmetic shift is the floor (R7). -/
theorem asr_isFloorShift (a : Int) (k : Nat) : isFloorShift a k (asr a k) := by
  have hp : (0 : Int) < 2 ^ k := by positivity
  exact ⟨Int.ediv_mul_le a hp.ne', Int.lt_ediv_add_one_mul_self a hp⟩

/-- The floor is the only integer between the two bounds. -/
theorem isFloorShift_iff (a : Int) (k : Nat) (q : Int) : isFloorShift a k q ↔ q = asr a k := by
  have hp : (0 : Int) < 2 ^ k := by positivity
  constructor
  · rintro ⟨h1, h2⟩
    have h3 : q ≤ asr a k := (Int.le_ediv_iff_mul_le hp).mpr h1
    have h4 : asr a k < q + 1 := (Int.ediv_lt_iff_lt_mul hp).mpr h2
    omega
  · rintro rfl
    exact asr_isFloorShift a k

/-- What each value of the pipeline is, in terms of the ones before it (R74 to R82). -/
structure PipeEquations (d2 d1 : RawCount) (t : Table) (v : PipeValues) : Prop where
  dT : v.dT = pipeDT d2 t[5]
  temp : v.temp = pipeTemp v.dT t[6]
  t2 : v.t2 = pipeT2 v.dT v.temp
  off2 : v.off2 = pipeOff2 v.temp
  sens2 : v.sens2 = pipeSens2 v.temp
  off : v.off = pipeOff t[2] t[4] v.dT v.off2
  sens : v.sens = pipeSens t[1] t[3] v.dT v.sens2
  p : v.p = pipeP d1 v.off v.sens
  tout : v.tout = v.temp - v.t2

theorem pipeline_equations (d2 d1 : RawCount) (t : Table) : PipeEquations d2 d1 t (pipeline d2 d1 t) := by
  constructor <;> rfl

@[simp] theorem compensate_fst (d2 d1 : RawCount) (t : Table) :
    (compensate d2 d1 t).1 = (pipeline d2 d1 t).tout := rfl

@[simp] theorem compensate_snd (d2 d1 : RawCount) (t : Table) :
    (compensate d2 d1 t).2 = (pipeline d2 d1 t).p := rfl

end Sys2Proof.Machine
end

