-- ==== Sys2Proof/Tests/Slice0.lean ====
section
/-! SUPPORT. The model's own tests. Expected values are those of the spec's vectors (95_test_vectors.md, named V-… here), or words
written out from the encoding tables of 30_encoding.md. The theorems named witness_… give concrete inputs that meet the
hypotheses of the statement they are named after. -/

namespace Sys2Proof.Machine.Tests

set_option Elab.async false

/-! ### States for tests -/

/-- The example table `E` of 95_test_vectors.md, its slot 7 and its CRC word left open. -/
def exampleTable (crcWord scratch : Word) : Table :=
  #v[crcWord, 0xB524, 0xABCD, 0x7183, 0x6CC2, 0x7B41, 0x6E05, scratch]

/-- `E`. -/
def tableE : Table := exampleTable 0x8000 0x0000

/-- The answer to a write or a probe. -/
def gives (st : BusStatus) : Answer := .answered st []

/-- A read acknowledged with its bytes. -/
def reads (bytes : List Byte) : Answer := .answered .ack bytes

/-- The answers to a fetch of all 8 words. -/
def fetchAnswers (t : Table) : List Answer := allSlots.flatMap fun slot => [gives .ack, reads (bytes16 (slotOf t slot))]

/-- The answers to one conversion. -/
def convAnswers (bytes : List Byte) : List Answer := [gives .ack, gives .ack, reads bytes]

/-- The state after reset, the answers to come given. -/
def fresh (script : List Answer) : State := { State.reset with script := script }

/-- `VALID = 1`, `PROM = E`, `OSR = 4`, the answers to come given. -/
def loaded (script : List Answer) : State :=
  { State.reset with prom := some tableE, valid := true, osr := 4, script := script }

/-- The state with request bytes to come. -/
def sending (bytes : List Byte) (s : State) : State := { s with inputs := bytes.map .byte }

/-- The last response of a step, status byte first; empty where there is none. -/
def responseOf : Step → List Byte
  | .next s =>
    match s.responses.getLast? with
    | some r => r.status :: r.data
    | none => []
  | .fault _ => []
  | .refused _ => []

/-- How many events there are on record after a step. -/
def eventsOf : Step → Nat
  | .next s => s.trace.length
  | .fault _ => 0
  | .refused _ => 0

/-- `PROM` after a step. -/
def promOf : Step → Option Table
  | .next s => s.prom
  | .fault _ => none
  | .refused _ => none

/-- The fault of a step. -/
def faultOf : Step → Option Fault
  | .next _ => none
  | .fault f => some f
  | .refused _ => none

/-- The refusal of a step. -/
def refusalOf : Step → Option Refusal
  | .next _ => none
  | .fault _ => none
  | .refused why => some why

/-- Does a step answer a next state? -/
def isNext : Step → Bool
  | .next _ => true
  | .fault _ => false
  | .refused _ => false

theorem exists_next {out : Step} (h : isNext out = true) : ∃ t, out = .next t := by
  match out, h with
  | .next t, _ => exact ⟨t, rfl⟩

/-! ### Well-formedness: the one check there is (R45) -/

theorem test_setres_code_5_is_wellformed : WellFormed (.setres 5) := by decide
theorem test_setres_code_6_is_illformed : ¬ WellFormed (.setres 6) := by decide
theorem test_setres_code_7_is_illformed : ¬ WellFormed (.setres 7) := by decide

/-! ### Decoding (R38 to R45), words written out in bits -/

theorem test_decode_init : decode [0b00010000#8] = .instr .init [] := by decide
theorem test_decode_probe : decode [0b00100000#8] = .instr .probe [] := by decide
theorem test_decode_devreset : decode [0b00110000#8] = .instr .devreset [] := by decide
theorem test_decode_setres : decode [0b01000101#8] = .instr (.setres 5) [] := by decide
theorem test_decode_load : decode [0b01010000#8] = .instr .load [] := by decide
theorem test_decode_readtp : decode [0b10000000#8] = .instr .readtp [] := by decide
theorem test_decode_readprom : decode [0b10010110#8] = .instr (.readprom 6) [] := by decide
/-- V-ENC-14. -/
theorem test_decode_comp :
    decode [0b01110000#8, 0x7B, 0x41, 0x44, 0x62, 0xA7, 0xA4] = .instr (.comp 8077636 6465444) [] := by decide
/-- V-ENC-15. -/
theorem test_decode_crcchk :
    decode [0b01100000#8, 0x80, 0x00, 0xB5, 0x24, 0xAB, 0xCD, 0x71, 0x83, 0x6C, 0xC2, 0x7B, 0x41, 0x6E, 0x05,
      0x00, 0x00] = .instr (.crcchk tableE) [] := by decide +kernel
/-- V-ENC-5, V-ENC-11. -/
theorem test_decode_reserved : ([0x46, 0x47, 0x00, 0xA0, 0xF0] : List Byte).map (fun h => decode [h]) =
    [.rejected .reservedResolution, .rejected .reservedResolution, .rejected .reservedOp, .rejected .reservedOp,
     .rejected .reservedOp] := by decide
/-- V-ENC-12, V-ENC-13. -/
theorem test_decode_fixed_fields :
    ([0x18, 0x48, 0x98, 0x88, 0x11, 0x57, 0x61, 0x71, 0x81] : List Byte).map (fun h => decode [h]) =
    [.rejected .zBitSet, .rejected .zBitSet, .rejected .zBitSet, .rejected .zBitSet, .rejected .nonzeroCode,
     .rejected .nonzeroCode, .rejected .nonzeroCode, .rejected .nonzeroCode, .rejected .nonzeroCode] := by decide

/-! ### The opcode table's numbering -/

theorem test_table_word_comp :
    decodeTableWord 56 0xA4A762_44417B_70 = some (.comp 8077636 6465444) := by decide +kernel
theorem test_table_word_short : decodeTableWord 8 0x60 = some (.crcchk (Vector.replicate 8 0)) := by decide +kernel
theorem test_placed_word_runs : responseOf (step (State.reset.withFetchWord 8 0x42)) = [0x00] := by decide +kernel

/-! ### The assembler (R50) -/

theorem test_assemble_setres : assemble ['S', 'E', 'T', 'R', 'E', 'S', ' ', '4', '0', '9', '6'] =
    some (.setres 4) := by decide +kernel
theorem test_assemble_comp :
    assemble ['c', 'o', 'm', 'p', ' ', '0', 'x', '6', 'B', ',', ' ', '9'] = some (.comp 0x6B 9) := by decide +kernel
theorem test_assemble_bad_rate : assemble ['S', 'E', 'T', 'R', 'E', 'S', ' ', '4', '0'] = none := by decide +kernel

/-! ### The thin operations -/

/-- V-BUS-1, V-BUS-8. -/
theorem test_init : responseOf (exec .init (fresh [])) = [0x00] ∧ responseOf (exec .init (loaded [])) = [0x04] := by
  decide +kernel
/-- V-BUS-2, V-BUS-3, V-BUS-4. -/
theorem test_probe : responseOf (exec .probe (fresh [gives .ack])) = [0x00, 0x01] ∧
    responseOf (exec .probe (fresh [gives .nack])) = [0x00, 0x00] ∧
    responseOf (exec .probe (loaded [gives .err])) = [0x04, 0x00] := by decide +kernel
/-- V-BUS-5, V-BUS-6, V-BUS-7. -/
theorem test_devreset : responseOf (exec .devreset (loaded [gives .ack])) = [0x04] ∧
    responseOf (exec .devreset (fresh [gives .nack])) = [0x01] ∧
    responseOf (exec .devreset (fresh [gives .err])) = [0x02] := by decide +kernel

/-! ### CRC and coefficient store -/

/-- V-CRC-1 to V-CRC-4 and V-CRC-6 to V-CRC-10: the CRCCHK data byte. -/
theorem test_crcchk : [tableE, exampleTable 0x8000 0x1234, Vector.replicate 8 0x0000, Vector.replicate 8 0xFFFF,
      exampleTable 0x8ABC 0, exampleTable 0x0ABC 0, exampleTable 0x3000 0, exampleTable 0xF000 0].map
        (fun t => responseOf (exec (.crcchk t) (fresh []))) =
    [[0x00, 0x18], [0x00, 0x18], [0x00, 0x10], [0x00, 0x0B], [0x00, 0x0D], [0x00, 0x0D], [0x00, 0x08],
     [0x00, 0x08]] := by decide +kernel
/-- V-CRC-1's remainder trace, at the bytes B5, 24 and AB. -/
theorem test_crc_remainders : crcAbsorb 0x0000 0xB5 = 0xB500 ∧ crcAbsorb 0xB500 0x24 = 0xC400 ∧
    crcAbsorb 0xC400 0xAB = 0xFB00 := by decide +kernel
/-- V-LOAD-1, V-LOAD-3: response, events, `PROM`. -/
theorem test_load : responseOf (exec .load (fresh (fetchAnswers tableE))) = [0x04] ∧
    eventsOf (exec .load (fresh (fetchAnswers tableE))) = 16 ∧
    promOf (exec .load (fresh (fetchAnswers tableE))) = some tableE ∧
    responseOf (exec .load (fresh (fetchAnswers (exampleTable 0x3000 0)))) = [0x03] ∧
    promOf (exec .load (fresh (fetchAnswers (exampleTable 0x3000 0)))) = none := by decide +kernel
/-- V-LOAD-5 to V-LOAD-8: the failing exchange is number 0, 7, 10 and 15. -/
theorem test_load_fails :
    [(0, BusStatus.nack), (7, .err), (10, .err), (15, .nack)].map (fun p =>
      let out := exec .load (fresh ((fetchAnswers tableE).set p.1 (gives p.2)))
      (responseOf out, eventsOf out)) = [([0x01], 1), ([0x02], 8), ([0x02], 11), ([0x01], 16)] := by decide +kernel
/-- V-RP-1 to V-RP-5. -/
theorem test_readprom : [0, 1, 6, 7].map (fun slot => responseOf (exec (.readprom slot) (loaded []))) =
    [[0x04, 0x80, 0x00], [0x04, 0xB5, 0x24], [0x04, 0x6E, 0x05], [0x04, 0x00, 0x00]] ∧
    faultOf (exec (.readprom 0) (fresh [])) = some .notValidated := by decide +kernel

/-! ### Compensation -/

/-- V-COMP-1, V-COMP-7, V-COMP-11, V-COMP-12, V-COMP-20. -/
theorem test_comp : [((8077636 : RawCount), (6465444 : RawCount)), (7035134, 6465444), (1, 6465444), (8077636, 0)].map
      (fun d => responseOf (exec (.comp d.1 d.2) (loaded []))) =
    [[0x04, 0x00, 0x00, 0x07, 0xD0, 0x00, 0x01, 0xAD, 0xB2], [0x04, 0xFF, 0xFF, 0xF8, 0xA8, 0x00, 0x01, 0x8A, 0x30],
     [0x04, 0xFF, 0xFF, 0x44, 0xDC, 0xFF, 0xFD, 0x48, 0x2D], [0x04, 0x00, 0x00, 0x07, 0xD0, 0xFF, 0xFD, 0x50, 0xCB]] ∧
    faultOf (exec (.comp 8077636 6465444) (fresh [])) = some .notValidated := by decide +kernel
/-- V-COMP-3, V-COMP-6, V-COMP-7: every value of the pipeline. -/
theorem test_pipeline : [(8077567 : RawCount), 7035135, 7035134].map (fun d2 => pipeline d2 6465444 tableE) =
    [⟨-1, 1999, 0, 3, 1, 5764677193, 3039035163, 110002, 1999⟩,
     ⟨-1042433, -1500, 379, 46703125, 22203125, 5264483575, 2780175543, 100912, -1879⟩,
     ⟨-1042434, -1501, 379, 46729833, 22215823, 5264456432, 2780162618, 100912, -1880⟩] := by decide +kernel
/-- V-COMP-15 to V-COMP-19. -/
theorem test_compensate_other_coefficients :
    compensate 7000000 6465444 #v[0, 46372, 43981, 29059, 27842, 31553, 0, 0] = (1979, 101292) ∧
    compensate 1 1 (Vector.replicate 8 0) = (2000, 0) ∧
    compensate 16777215 16777215 (Vector.replicate 8 65535) = (2001, 786443) ∧
    compensate 0 16777215 #v[0, 0, 0, 65535, 0, 65535, 65535, 0] = (-227370, -35015274) ∧
    compensate 255 1000000 #v[0, 40000, 40000, 1, 1, 1, 1, 0] = (1999, -121854) := by decide +kernel

/-! ### Resolution and measurement -/

/-- V-RES-1, V-RES-2. -/
theorem test_setres : exec (.setres 0) (fresh []) = .next { fresh [] with osr := 0, responses := [⟨0x00, []⟩] } ∧
    exec (.setres 5) (loaded []) = .next { loaded [] with osr := 5, responses := [⟨0x04, []⟩] } := ⟨rfl, rfl⟩
/-- V-RTP-1 to V-RTP-4, V-RTP-7, V-RTP-10: response and number of events. -/
theorem test_readtp : [loaded (convAnswers [0x7B, 0x41, 0x44] ++ convAnswers [0x62, 0xA7, 0xA4]),
      fresh (fetchAnswers tableE ++ convAnswers [0x7B, 0x41, 0x44] ++ convAnswers [0x62, 0xA7, 0xA4]),
      loaded (convAnswers [0x00, 0x00, 0x00] ++ convAnswers [0x62, 0xA7, 0xA4]),
      loaded (convAnswers [0x7B, 0x41, 0x44] ++ convAnswers [0x00, 0x00, 0x00]),
      loaded (convAnswers [0x00, 0x00, 0x00] ++ [gives .nack]),
      fresh (fetchAnswers tableE ++ [gives .ack, gives .ack, gives .err])].map
        (fun s => (responseOf (exec .readtp s), eventsOf (exec .readtp s))) =
    [([0x04, 0x00, 0x00, 0x07, 0xD0, 0x00, 0x01, 0xAD, 0xB2], 8),
     ([0x04, 0x00, 0x00, 0x07, 0xD0, 0x00, 0x01, 0xAD, 0xB2], 24), ([0x06], 8), ([0x06], 8), ([0x05], 5),
     ([0x06], 20)] := by decide +kernel
/-- V-RTP-5, V-RTP-8: the events of a measurement that fails at its start and at its select. -/
theorem test_readtp_events :
    exec .readtp (loaded [gives .nack]) = .next { loaded [] with
      trace := [.write (convCommand 4 Config.convBaseT) .nack], responses := [⟨0x05, []⟩] } ∧
    exec .readtp (loaded [gives .ack, gives .err]) = .next { loaded [] with
      trace := [.write (convCommand 4 Config.convBaseT) .ack, .wait (Config.convWaitMs 4), .write 0x00 .err],
      responses := [⟨0x06, []⟩] } := ⟨rfl, rfl⟩

/-! ### Steps -/

/-- P1's first request, `44` in the stream `44 80`: what is left of the stream, and the response. -/
theorem test_step_takes_one_request : step (sending [0x44, 0x80] (fresh [])) =
    .next { fresh [] with osr := 4, inputs := [.byte 0x80], responses := [⟨0x00, []⟩] } := rfl
/-- V-EXC-1, V-RES-4. -/
theorem test_step_refuses : refusalOf (step (sending [0xA0] State.reset)) = some .reservedOp ∧
    refusalOf (step (sending [0x46] State.reset)) = some .reservedResolution := by decide +kernel
/-- V-RST-1. -/
theorem test_block_reset : step { loaded [] with trace := [.ini], inputs := [.blockReset] } = .next State.reset := rfl

/-! ### Witnesses: concrete inputs that meet each statement's hypotheses -/

theorem witness_BlockResetClearsTheBlock :
    { loaded [] with inputs := [.blockReset] }.inputs = .blockReset :: [] ∧
    (step { loaded [] with inputs := [.blockReset] } = .next State.reset ∧ (loaded []).valid = true ∧
      State.reset.valid = false) ∧
    (∃ t, exec .devreset (loaded [gives .ack]) = .next t) := ⟨rfl, ⟨rfl, rfl, rfl⟩, _, rfl⟩

theorem witness_BlockResetDiscardsAnUnfinishedRequest :
    decode [0x70, 0x7B] = .rejected .truncated ∧
    { loaded [] with inputs := [.byte 0x70, .byte 0x7B, .blockReset] }.inputs =
      ([0x70, 0x7B] : List Byte).map .byte ++ .blockReset :: [] := ⟨by decide, rfl⟩

theorem witness_IdleBlockWaits :
    decode [] = .rejected .truncated ∧ decode [0x70, 0x7B] = .rejected .truncated ∧
    (sending [0x70, 0x7B] State.reset).inputs = ([0x70, 0x7B] : List Byte).map .byte := ⟨rfl, by decide, rfl⟩

theorem witness_DecodeOfEncodeIsTheInstruction :
    WellFormed (.setres 0) ∧ WellFormed (.setres 5) ∧ WellFormed (.readprom 7) ∧ WellFormed (.crcchk tableE) ∧
    WellFormed (.comp 0 16777215) := by decide

theorem witness_DecodedBytesAreTheEncoding : decode [0x44, 0x80] = .instr (.setres 4) [0x80] := by decide

/-- A header of each reserved kind, at its bounds, and one that is not reserved. -/
theorem witness_ReservedHeadersAreRefused :
    [0x00, 0x0F, 0xA0, 0xFF, 0x46, 0x47, 0x18, 0x98, 0x11, 0x87].all
      (fun h => (refusalOf (step (sending [h] State.reset))).isSome) = true ∧
    [0x10, 0x45, 0x60, 0x70, 0x80, 0x97].all
      (fun h => (refusalOf (step (sending [h] State.reset))).isNone) = true := by decide +kernel

theorem witness_StepRunsTheDecodedRequest : decode [0x44] = .instr (.setres 4) [] ∧
    (sending [0x44, 0x80] State.reset).inputs = ([0x44] : List Byte).map .byte ++ [.byte 0x80] := ⟨by decide, rfl⟩

theorem witness_PlacedTableWordIsRunNext : decodeTableWord 8 0x42 = some (.setres 2) := by decide

theorem witness_CommandBytesFollowTheFormulas : 0 < 8 ∧ 7 < 8 := by decide

theorem witness_AssembledLinesAreWellFormed :
    assemble ['R', 'E', 'A', 'D', 'P', 'R', 'O', 'M', ' ', '7'] = some (.readprom 7) := by decide +kernel

theorem witness_ProbeReportsTheAcknowledge :
    (fresh [gives .ack]).answerAt 0 = .answered .ack [] ∧ (fresh []).answerAt 0 = .answered .nack [] ∧
    (loaded [gives .err]).answerAt 0 = .answered .err [] := ⟨rfl, rfl, rfl⟩

theorem witness_DevresetSendsTheResetCommand :
    (loaded [gives .ack]).answerAt 0 = .answered .ack [] ∧ (fresh []).answerAt 0 = .answered .nack [] ∧
    (loaded [gives .err]).answerAt 0 = .answered .err [] := ⟨rfl, rfl, rfl⟩

theorem fetchAnswers_delivers (t : Table) (more : List Answer) : (fresh (fetchAnswers t ++ more)).delivers t := by
  intro slot
  rcases slot_cases slot with rfl | rfl | rfl | rfl | rfl | rfl | rfl | rfl <;> exact ⟨⟨_, rfl⟩, rfl⟩

/-- From `VALID = 0` and from `VALID = 1`; then the last exchange of LOAD, the last of READTP with the cache, and the first that
READTP makes after its fetch. -/
theorem witness_UnansweredExchangeIsStuck :
    ((fresh [.never]).answerAt 0 = .never ∧ (fresh [.never]).valid = false) ∧
    ((loaded [.never]).answerAt 0 = .never ∧ (loaded [.never]).valid = true) ∧
    (fresh ((fetchAnswers tableE).set 15 .never)).StuckAt .load 15 (.read 2) ∧
    (loaded ((convAnswers [1, 2, 3] ++ convAnswers [4, 5, 6]).set 5 .never)).StuckAt .readtp 5 (.read 3) ∧
    (fresh (fetchAnswers tableE ++ [.never])).StuckAt .readtp 16 (.write (convCommand Config.osrReset Config.convBaseT)) := by
  refine ⟨⟨rfl, rfl⟩, ⟨rfl, rfl⟩, ⟨rfl, ?_, by simp, rfl⟩, ⟨rfl, ?_, by simp [loaded], rfl⟩,
    ⟨rfl, ?_, fun _ _ _ => ⟨tableE, fetchAnswers_delivers _ _, by decide +kernel⟩, rfl⟩⟩
  all_goals
    intro j kind hj
    have hlt := (List.getElem?_eq_some_iff.mp hj).1
    replace hlt : j < 16 := lt_of_lt_of_le hlt (by decide)
    interval_cases j <;> first | (cases hj; rfl) | cases hj

theorem witness_AssemblerHasTheNineForms : AsmForm "SETRES" [8192] (.setres 5) ∧ AsmForm "COMP" [0, 1] (.comp 0 1) ∧
    AsmForm "READPROM" [7] (.readprom 7) := ⟨.setres 5 (by decide), .comp 0 1, .readprom 7⟩

theorem witness_AssemblerLinesHoldMnemonicAndOperands :
    ((['C', 'o', 'm', 'p'] : List Char) ≠ [] ∧ (∀ c ∈ ['C', 'o', 'm', 'p'], c ≠ ' ' ∧ c ≠ '\t') ∧
      [['0', 'x', '6', 'B'], ['9']].map parseNumber = [0x6B, 9].map some) ∧
    ((['I', 'N', 'I', 'T'] : List Char) ≠ [] ∧ ([] : List (List Char)).map parseNumber = ([] : List Nat).map some) ∧
    WellFormed (.comp 0x6B 9) := ⟨⟨by simp, by simp, rfl⟩, ⟨by simp, rfl⟩, rfl⟩

theorem witness_CrcDetectsSingleBitFlips : 0 < 16 ∧ 15 < 16 ∧ crcOk tableE = true := by decide +kernel

/-- One state for each case of the word read. -/
theorem witness_ReadWordIsTwoExchanges :
    ((fresh [gives .ack, reads [0xB5, 0x24]]).ackAt 0 ∧
      (fresh [gives .ack, reads [0xB5, 0x24]]).answerAt 1 = .answered .ack [0xB5, 0x24]) ∧
    ((fresh []).answerAt 0 = .answered .nack [] ∧ (fresh [gives .err]).answerAt 0 = .answered .err []) ∧
    ((fresh [gives .ack]).ackAt 0 ∧ (fresh [gives .ack]).answerAt 1 = .answered .nack [] ∧
      (fresh [gives .ack, gives .err]).ackAt 0 ∧ (fresh [gives .ack, gives .err]).answerAt 1 = .answered .err [] ∧
      (fresh [gives .ack, reads [0xB5]]).ackAt 0 ∧
      (fresh [gives .ack, reads [0xB5]]).answerAt 1 = .answered .ack [0xB5] ∧ ([0xB5] : List Byte).length ≠ 2) :=
  ⟨⟨⟨_, rfl⟩, rfl⟩, ⟨rfl, rfl⟩, ⟨_, rfl⟩, rfl, ⟨_, rfl⟩, rfl, ⟨_, rfl⟩, rfl, by decide⟩

theorem witness_LoadCommitsAFetchedTable : (fresh (fetchAnswers tableE ++ [])).valid = false ∧
    (fresh (fetchAnswers tableE ++ [])).delivers tableE ∧ crcOk tableE = true :=
  ⟨rfl, fetchAnswers_delivers _ _, by decide +kernel⟩

theorem witness_LoadKeepsTheCacheAndDropsBadTables : (loaded []).valid = true ∧
    (fresh (fetchAnswers (exampleTable 0x3000 0) ++ [])).valid = false ∧
    (fresh (fetchAnswers (exampleTable 0x3000 0) ++ [])).delivers (exampleTable 0x3000 0) ∧
    crcOk (exampleTable 0x3000 0) = false := ⟨rfl, rfl, fetchAnswers_delivers _ _, by decide +kernel⟩

/-- At the first exchange (a write answered NACK) and at the last (a read answered ACK with one byte). -/
theorem witness_LoadEndsAtTheFirstFailedExchange :
    ((fresh []).valid = false ∧ 0 < 16 ∧ (∀ k ≤ 0, (fresh []).answerAt k = .answered .nack []) ∧
      loadStatus 0 .nack [] ≠ .ack) ∧
    ∃ answers : Nat → BusStatus × List Byte,
      (∀ k ≤ 15, { fresh [] with script := (fetchAnswers tableE).set 15 (reads [0x00]) }.answerAt k =
        .answered (answers k).1 (answers k).2) ∧
      (∀ k < 15, loadStatus k (answers k).1 (answers k).2 = .ack) ∧
      loadStatus 15 (answers 15).1 (answers 15).2 ≠ .ack := by
  refine ⟨⟨rfl, by decide, by decide, by decide⟩,
    fun k => (.ack, match ((fetchAnswers tableE).set 15 (reads [0x00])).getD k .never with
      | .answered _ bytes => bytes
      | .never => []), by decide, by decide, by decide⟩

theorem witness_LoadIsIdempotent :
    ∃ t, exec .load (loaded []) = .next t ∧ t.valid = true := ⟨_, rfl, rfl⟩

theorem witness_ReadpromReturnsTheSlot :
    ((loaded []).valid = true ∧ (loaded []).prom = some tableE) ∧ (fresh []).valid = false := ⟨⟨rfl, rfl⟩, rfl⟩

/-- Each branch of the pipeline, at its bounds (V-COMP-2, V-COMP-3, V-COMP-6, V-COMP-7), and `SENS = 0` (V-COMP-16). -/
theorem witness_PipelineValuesFollowTheRules :
    (pipeline 8077568 6465444 tableE).temp = 2000 ∧ (pipeline 8077567 6465444 tableE).temp = 1999 ∧
    (pipeline 7035135 6465444 tableE).temp = -1500 ∧ (pipeline 7035134 6465444 tableE).temp = -1501 := by
  decide +kernel

theorem witness_BranchAndRoundingLaws : (exampleTable 0 0)[6] ≠ 0#16 ∧ (Vector.replicate 8 0#16)[6] = 0#16 ∧
    (pipeline 1 1 (Vector.replicate 8 0)).sens = 0 := by decide +kernel

theorem witness_CompAnswersTheCompensatedPair :
    ((loaded []).valid = true ∧ (loaded []).prom = some tableE) ∧ (fresh []).valid = false := ⟨⟨rfl, rfl⟩, rfl⟩

theorem witness_SetresStoresTheCode : (0#3).toNat ≤ 5 ∧ (5#3).toNat ≤ 5 ∧ 5 < (6#3).toNat ∧ 5 < (7#3).toNat := by decide

/-- One state for each clause of the conversion. -/
theorem witness_ConversionIsStartWaitSelectRead :
    ((fresh (convAnswers [0x7B, 0x41, 0x44])).ackAt 0 ∧ (fresh (convAnswers [0x7B, 0x41, 0x44])).ackAt 1 ∧
      (fresh (convAnswers [0x7B, 0x41, 0x44])).answerAt 2 = .answered .ack [0x7B, 0x41, 0x44]) ∧
    ((fresh []).answerAt 0 = .answered .nack [] ∧ (fresh [gives .err]).answerAt 0 = .answered .err []) ∧
    ((fresh [gives .ack]).ackAt 0 ∧ (fresh [gives .ack]).answerAt 1 = .answered .nack []) ∧
    ((fresh (convAnswers [0x7B])).ackAt 0 ∧ (fresh (convAnswers [0x7B])).ackAt 1 ∧
      (fresh (convAnswers [0x7B])).answerAt 2 = .answered .ack [0x7B] ∧ ([0x7B] : List Byte).length ≠ 3) :=
  ⟨⟨⟨_, rfl⟩, ⟨_, rfl⟩, rfl⟩, ⟨rfl, rfl⟩, ⟨⟨_, rfl⟩, rfl⟩, ⟨_, rfl⟩, ⟨_, rfl⟩, rfl, by decide⟩

/-- A measurement answered well, and the same with the temperature count or the pressure count zero. -/
def measuring (d2 d1 : RawCount) : State := loaded (convAnswers (bytes24 d2) ++ convAnswers (bytes24 d1))

theorem measuring_delivers (d2 d1 : RawCount) :
    (measuring d2 d1).deliversCount 0 d2 ∧ (measuring d2 d1).deliversCount 3 d1 :=
  ⟨⟨⟨_, rfl⟩, ⟨_, rfl⟩, rfl⟩, ⟨_, rfl⟩, ⟨_, rfl⟩, rfl⟩

theorem witness_ReadtpMeasuresWithCachedCoefficients :
    (measuring 8077636 6465444).valid = true ∧ (measuring 8077636 6465444).prom = some tableE ∧
    (measuring 8077636 6465444).deliversCount 0 8077636 ∧ (measuring 8077636 6465444).deliversCount 3 6465444 ∧
    (8077636#24 ≠ 0#24 ∧ 6465444#24 ≠ 0#24) :=
  ⟨rfl, rfl, (measuring_delivers _ _).1, (measuring_delivers _ _).2, by decide⟩

theorem witness_ZeroCountIsATransferError :
    (measuring 0 6465444).valid = true ∧ (measuring 0 6465444).deliversCount 0 0#24 ∧
    (measuring 0 6465444).deliversCount 3 6465444 ∧ (measuring 8077636 0).deliversCount 0 8077636 ∧
    (measuring 8077636 0).deliversCount 3 0#24 :=
  ⟨rfl, (measuring_delivers _ _).1, (measuring_delivers _ _).2, (measuring_delivers _ _).1, (measuring_delivers _ _).2⟩

/-- LOAD without a commit, stuck, and with a commit. -/
theorem witness_ReadtpLoadsFirst : (fresh []).valid = false ∧
    (∃ t, exec .load (fresh []) = .next t ∧ t.valid = false) ∧
    (∃ f, exec .load (fresh [.never]) = .fault f) ∧
    (∃ t, exec .load (fresh (fetchAnswers tableE ++ [])) = .next t ∧ t.valid = true) := by
  refine ⟨rfl, ⟨_, rfl, rfl⟩, ⟨_, rfl⟩, ⟨respond .ok [] (State.commit ((fresh (fetchAnswers tableE ++ [])).after 16 (fetchEvents tableE)) tableE), ?_, rfl⟩⟩
  simp only [exec, execLoad, ensureLoaded, fetchSlots_delivered (fetchAnswers_delivers tableE [])]
  simp [fresh, State.reset, validate, show crcOk tableE = true by decide +kernel]

theorem witness_ReadtpFromAnEmptyCache :
    let s := fresh (fetchAnswers tableE ++ (convAnswers (bytes24 1) ++ convAnswers (bytes24 6465444)))
    s.valid = false ∧ s.delivers tableE ∧ crcOk tableE = true ∧ s.deliversCount 16 1 ∧ s.deliversCount 19 6465444 ∧
      1#24 ≠ 0#24 ∧ 6465444#24 ≠ 0#24 :=
  ⟨rfl, fetchAnswers_delivers _ _, by decide +kernel, ⟨⟨_, rfl⟩, ⟨_, rfl⟩, rfl⟩, ⟨⟨_, rfl⟩, ⟨_, rfl⟩, rfl⟩, by decide⟩

/-- At the first exchange, and at the last, a read answered ACK with two bytes. -/
theorem witness_ReadtpEndsAtTheFirstFailedExchange :
    ((loaded []).valid = true ∧ 0 < 6 ∧ (∀ k ≤ 0, (loaded []).answerAt k = .answered .nack []) ∧
      measureStatus 0 .nack [] ≠ .ack) ∧
    ∃ answers : Nat → BusStatus × List Byte,
      (∀ k ≤ 5, (loaded (convAnswers [1, 2, 3] ++ convAnswers [4, 5])).answerAt k =
        .answered (answers k).1 (answers k).2) ∧
      (∀ k < 5, measureStatus k (answers k).1 (answers k).2 = .ack) ∧
      measureStatus 5 (answers 5).1 (answers 5).2 ≠ .ack := by
  refine ⟨⟨rfl, by decide, by decide, by decide⟩,
    fun k => (.ack, match (convAnswers [1, 2, 3] ++ convAnswers [4, 5]).getD k .never with
      | .answered _ bytes => bytes
      | .never => []), by decide, by decide, by decide⟩

theorem witness_ReadtpAgreesWithComp : ∃ t u, (measuring 1 1).valid = true ∧
    exec .readtp (measuring 1 1) = .next t ∧ exec (.comp 1 1) (measuring 1 1) = .next u := by
  obtain ⟨t, ht⟩ := exists_next (show isNext (exec .readtp (measuring 1 1)) = true by decide +kernel)
  obtain ⟨u, hu⟩ := exists_next (show isNext (exec (.comp 1 1) (measuring 1 1)) = true by decide +kernel)
  exact ⟨t, u, rfl, ht, hu⟩

theorem loaded_inv (script : List Answer) : (loaded script).Inv where
  valid_iff := rfl
  crc := by
    intro t ht
    obtain rfl : tableE = t := by simpa [loaded] using ht
    decide +kernel
  osr := by simp [loaded]
  events := by simp [loaded, State.reset]

theorem witness_StepKeepsTheInvariant :
    (loaded []).Inv ∧ ∃ t, step (sending [0x40] (loaded [])) = .next t := ⟨loaded_inv _, _, rfl⟩

theorem witness_OperationsChangeOnlyTheirOwnState :
    (∃ t, exec (.setres 1) (loaded []) = .next t) ∧ (∃ t, exec .init (loaded []) = .next t) := ⟨⟨_, rfl⟩, _, rfl⟩

theorem witness_EveryRequestGetsOneResponse :
    (∃ t, exec (.readprom 1) (loaded []) = .next t) ∧ (∃ t, exec .load (fresh []) = .next t) := ⟨⟨_, rfl⟩, _, rfl⟩

/-- An error status, and CrcError. -/
theorem witness_ErrorStatusesByOperation :
    (∃ t r, exec .devreset (loaded []) = .next t ∧ t.responses = (loaded []).responses ++ [r] ∧ r.status.toNat % 4 ≠ 0) ∧
    (responseOf (exec .load (fresh (fetchAnswers (exampleTable 0x3000 0))))).map (fun b => b.toNat % 4) = [3] := by
  exact ⟨⟨_, ⟨0x05, []⟩, rfl, rfl, by decide⟩, by decide +kernel⟩

theorem witness_CachedCoefficientsStayUntilReset :
    ∃ t, step (sending [0x40] (loaded [])) = .next t ∧ (sending [0x40] (loaded [])).valid = true := ⟨_, rfl, rfl⟩

theorem witness_NotValidatedComesOfCompAndReadprom :
    (fresh []).valid = (fresh []).prom.isSome ∧ (loaded []).valid = (loaded []).prom.isSome := ⟨rfl, rfl⟩

theorem witness_StuckOnlyWhenTheBusNeverAnswers :
    exec .probe (fresh [.never]) = .fault (.busNeverCompletes ⟨Config.devAddr, .probe⟩) := rfl

theorem witness_RequestsRespondWhenTheBusAnswers :
    WellFormed (.comp 1 1) ∧ (loaded []).valid = (loaded []).prom.isSome ∧ (loaded []).valid = true ∧
    (∀ k, (loaded []).answerAt k ≠ .never) ∧
    (fresh []).valid = (fresh []).prom.isSome ∧ readsStore .load = false ∧ (∀ k, (fresh []).answerAt k ≠ .never) :=
  ⟨by decide, rfl, rfl, by simp [State.answerAt, loaded, State.reset, Answer.absent], rfl, rfl,
   by simp [State.answerAt, fresh, State.reset, Answer.absent]⟩

theorem witness_WellFormedRequestsAreNeverRefused : WellFormed (.setres 5) := by decide

end Sys2Proof.Machine.Tests
end

namespace Sys2Proof.Machine

/-- With a request at the head of the input, a step is the instruction's meaning and nothing around it (R2). -/
theorem step_of_fetch_request {s : State} {i : Instr} {rest : List HostInput}
    (h : fetch s.inputs = .request i rest) : step s = exec i (s.withInputs rest) := by
  simp only [step, h]

/-- Settles O9: the fetch takes exactly the decoded bytes off the input, and the step is `exec` of what was fetched. -/
theorem stepRunsTheDecodedRequest : Obligations.StepRunsTheDecodedRequest := by
  intro s bytes i rest hdecode hinputs
  have hfetch : fetch s.inputs = .request i rest := by
    rw [hinputs]
    exact fetch_request hdecode rest
  exact step_of_fetch_request hfetch

end Sys2Proof.Machine

namespace Sys2Proof.Machine

/-! ### What one step can do -/

/-- A step that answers a next state waited, took a block reset, or ran one request on the inputs after it. -/
theorem step_next_cases {s t : State} (h : step s = .next t) :
    (fetch s.inputs = .idle ∧ t = s) ∨
    (∃ rest, fetch s.inputs = .reset rest ∧ t = s.blockReset.withInputs rest) ∨
    (∃ i rest, fetch s.inputs = .request i rest ∧ exec i (s.withInputs rest) = .next t) := by
  cases hf : fetch s.inputs with
  | idle =>
    simp only [step, hf, Host.Outcome.next.injEq] at h
    exact .inl ⟨rfl, h.symm⟩
  | reset rest =>
    simp only [step, hf, Host.Outcome.next.injEq] at h
    exact .inr (.inl ⟨rest, rfl, h.symm⟩)
  | request i rest =>
    rw [step_of_fetch_request hf] at h
    exact .inr (.inr ⟨i, rest, rfl, h⟩)
  | reserved why => simp [step, hf] at h

/-- The ends of an instruction that answers a next state. -/
theorem exec_next_cases {E : Event → Prop} {i : Instr} {s t : State} (hE : AllowsAll E s.osr)
    (h : exec i s = .next t) : ExecCase E i s (.next t) :=
  h ▸ exec_cases hE i

/-! ### The resolution codes -/

/-- The open parameter `OSR_RESET` is in 0 to 5 (R5). -/
theorem osrReset_le_five : Config.osrReset.toNat ≤ 5 := by
  have hchoice := Config.osrResetChoice.isLt
  simp only [Config.osrReset, BitVec.toNat_ofNat]
  omega

theorem resolutionCode_oversamplingRate {code : BitVec 3} (h : code.toNat ≤ 5) :
    resolutionCode (oversamplingRate code) = some code := by
  revert code
  decide

theorem eq_oversamplingRate_of_resolutionCode {rate : Nat} {code : BitVec 3}
    (h : resolutionCode rate = some code) : code.toNat ≤ 5 ∧ rate = oversamplingRate code := by
  unfold resolutionCode at h
  split at h <;> cases h <;> decide

/-- Settles O13: the six rates of the code table are those of the codes 0 to 5, and each of them names its code. -/
theorem resolutionCodesNameTheSixRates : Obligations.ResolutionCodesNameTheSixRates := by
  intro rate code
  constructor
  · exact eq_oversamplingRate_of_resolutionCode
  · rintro ⟨hcode, rfl⟩
    exact resolutionCode_oversamplingRate hcode

/-! ### What reset leaves -/

/-- Settles O1: the values of R23, with `OSR_RESET` within the range of R5. -/
theorem resetLeavesStoreUnsetAndTraceEmpty : Obligations.ResetLeavesStoreUnsetAndTraceEmpty :=
  ⟨rfl, rfl, rfl, osrReset_le_five, rfl⟩

/-! ### The updates of the state keep the invariant -/

section
variable {s : State}

/-- A block reset establishes the invariant, from any state. -/
theorem inv_blockReset (s : State) : s.blockReset.Inv where
  valid_iff := rfl
  crc := by simp
  osr := osrReset_le_five
  events := by simp

theorem State.Inv.withInputs (h : s.Inv) (inputs : List HostInput) : (s.withInputs inputs).Inv :=
  ⟨h.valid_iff, h.crc, h.osr, h.events⟩

theorem State.Inv.respond (h : s.Inv) (st : Status) (data : List Byte) : (respond st data s).Inv :=
  ⟨h.valid_iff, h.crc, h.osr, h.events⟩

theorem State.Inv.setOsr (h : s.Inv) {code : BitVec 3} (hcode : code.toNat ≤ 5) : (s.setOsr code).Inv :=
  ⟨h.valid_iff, h.crc, hcode, h.events⟩

theorem State.Inv.commit (h : s.Inv) {table : Table} (hcrc : crcOk table = true) : (s.commit table).Inv where
  valid_iff := rfl
  crc := by simpa using hcrc
  osr := h.osr
  events := h.events

theorem State.Inv.after (h : s.Inv) (k : Nat) {es : List Event} (hes : ∀ e ∈ es, e.lawful) : (s.after k es).Inv where
  valid_iff := h.valid_iff
  crc := h.crc
  osr := h.osr
  events := by simpa [or_imp, forall_and] using ⟨h.events, hes⟩

end

/-- Settles O43: at reset the store is unset and not valid, the code is `OSR_RESET`, and nothing is recorded. -/
theorem resetMeetsTheInvariant : Obligations.ResetMeetsTheInvariant where
  valid_iff := rfl
  crc := by simp [State.reset]
  osr := osrReset_le_five
  events := by simp [State.reset]

/-- The resolution held is at most 5, so every event an instruction records is lawful; each end is then a row of updates that keep
the invariant. -/
theorem exec_preserves_inv {i : Instr} {s t : State} (h : s.Inv) (hexec : exec i s = .next t) : t.Inv := by
  cases exec_next_cases (allowsAll_lawful h.osr) hexec with
  | responds k es st data events => exact (h.after k events).respond st data
  | sets code instr wf => exact (h.setOsr wf).respond .ok []
  | commits k es table l fs st data instr empty ok before afterwards =>
    exact (((h.after k before).commit ok).after l afterwards).respond st data

/-- Settles O44, by the three things a step can do. -/
theorem stepKeepsTheInvariant : Obligations.StepKeepsTheInvariant := by
  intro s t hinv hstep
  rcases step_next_cases hstep with ⟨-, rfl⟩ | ⟨rest, -, rfl⟩ | ⟨i, rest, -, hexec⟩
  · exact hinv
  · exact (inv_blockReset s).withInputs rest
  · exact exec_preserves_inv (hinv.withInputs rest) hexec

/-! ### The frame of each part of the state -/

/-- The operations that may commit also use the bus. -/
theorem mayLoad_and_usesBus {i : Instr} (h : i = .load ∨ i = .readtp) : mayLoad i = true ∧ usesBus i = true := by
  rcases h with rfl | rfl <;> exact ⟨rfl, rfl⟩

section
variable {i : Instr} {s t : State} (h : exec i s = .next t)
include h

/-- Only SETRES writes `OSR` (R88). -/
theorem exec_osr : t.osr = s.osr ∨ ∃ code, i = .setres code ∧ t.osr = code := by
  cases exec_next_cases (allowsAll_true s.osr) h with
  | responds => exact .inl rfl
  | sets code instr => exact .inr ⟨code, instr, rfl⟩
  | commits => exact .inl rfl

/-- Only LOAD and READTP from an empty cache write the store, and they store a table whose CRC matches (R68). -/
theorem exec_store : (t.prom = s.prom ∧ t.valid = s.valid) ∨
    (mayLoad i = true ∧ s.valid = false ∧ t.valid = true ∧ ∃ table, t.prom = some table ∧ crcOk table = true) := by
  cases exec_next_cases (allowsAll_true s.osr) h with
  | responds => exact .inl ⟨rfl, rfl⟩
  | sets => exact .inl ⟨rfl, rfl⟩
  | commits k es table l fs st data instr empty ok =>
    exact .inr ⟨(mayLoad_and_usesBus instr).1, empty, rfl, table, rfl, ok⟩

/-- `TRACE` only grows; without the bus it grows by the event of INIT alone (R58). -/
theorem exec_trace :
    ∃ es, t.trace = s.trace ++ es ∧ (usesBus i = false → es = if i = .init then [.ini] else []) := by
  cases exec_next_cases (allowsAll_true s.osr) h with
  | responds k es st data events len error crc quiet => exact ⟨es, rfl, fun hbus => (quiet hbus).2⟩
  | sets code instr => exact ⟨[], by simp, by simp [instr]⟩
  | commits k es table l fs st data instr =>
    have hbus := (mayLoad_and_usesBus instr).2
    exact ⟨es ++ fs, by simp, by simp [hbus]⟩

/-- Answers are taken from the front of the script, and only by an operation that uses the bus. -/
theorem exec_script : ∃ k, t.script = s.script.drop k ∧ (usesBus i = false → k = 0) := by
  cases exec_next_cases (allowsAll_true s.osr) h with
  | responds k es st data events len error crc quiet => exact ⟨k, rfl, fun hbus => (quiet hbus).1⟩
  | sets => exact ⟨0, rfl, fun _ => rfl⟩
  | commits k es table l fs st data instr =>
    have hbus := (mayLoad_and_usesBus instr).2
    exact ⟨k + l, by simp, by simp [hbus]⟩

/-- No operation writes the inputs to come or the oracle's default answer. -/
theorem exec_inputs_afterScript : t.inputs = s.inputs ∧ t.afterScript = s.afterScript := by
  cases exec_next_cases (allowsAll_true s.osr) h with
  | responds => exact ⟨rfl, rfl⟩
  | sets => exact ⟨rfl, rfl⟩
  | commits => exact ⟨rfl, rfl⟩

end

/-- Settles O45, part by part of the state. -/
theorem operationsChangeOnlyTheirOwnState : Obligations.OperationsChangeOnlyTheirOwnState :=
  fun _ _ _ h => ⟨exec_osr h, exec_store h, exec_trace h, exec_script h, exec_inputs_afterScript h⟩

/-- Settles O48: a request keeps a cached table, for only an empty cache is written. -/
theorem cachedCoefficientsStayUntilReset : Obligations.CachedCoefficientsStayUntilReset := by
  intro s t hstep hvalid
  rcases step_next_cases hstep with ⟨-, rfl⟩ | ⟨rest, hfetch, -⟩ | ⟨i, rest, -, hexec⟩
  · exact .inl ⟨rfl, hvalid⟩
  · exact .inr ⟨rest, hfetch⟩
  · rcases exec_store hexec with ⟨hprom, hv⟩ | ⟨-, hempty, -⟩
    · exact .inl ⟨hprom, hv.trans hvalid⟩
    · cases hvalid.symm.trans hempty

end Sys2Proof.Machine

namespace Sys2Proof.Machine

/-! ### Received bytes -/

@[simp] theorem wordOfBytes_pair (b0 b1 : Byte) : wordOfBytes [b0, b1] = be16 b0 b1 := rfl

@[simp] theorem countOfBytes_triple (b0 b1 b2 : Byte) : countOfBytes [b0, b1, b2] = be24 b0 b1 b2 := rfl

@[simp] theorem wordOfBytes_bytes16 (w : Word) : wordOfBytes (bytes16 w) = w := by
  rw [bytes16, wordOfBytes_pair, be16_of_bytes]

@[simp] theorem countOfBytes_bytes24 (d : RawCount) : countOfBytes (bytes24 d) = d := by
  rw [bytes24, countOfBytes_triple, be24_of_bytes]

/-- Settles O11: received bytes are joined by `be16` and `be24`, whose values are the sums of R27 and R28 and which undo the split
into bytes. -/
theorem transfersAreMostSignificantByteFirst : Obligations.TransfersAreMostSignificantByteFirst := by
  refine ⟨fun b0 b1 => ?_, fun b0 b1 b2 => ?_, wordOfBytes_bytes16, countOfBytes_bytes24⟩
  · rw [wordOfBytes_pair, toNat_be16]
  · rw [countOfBytes_triple, toNat_be24]

end Sys2Proof.Machine

namespace Sys2Proof

/-! ### The decoder and the encoder -/

@[simp] theorem wellFormed_setres {code : BitVec 3} : WellFormed (.setres code) ↔ code.toNat ≤ 5 :=
  decide_eq_true_iff

/-- The opcode map read forwards (R39): an instruction's header and payload decode to it. -/
theorem decode_encode_append {i : Instr} (hwf : WellFormed i) (rest : List Byte) :
    decode (encode i ++ rest) = .instr i rest := by
  cases i with
  | init | probe | devreset | load | readtp =>
    simp [encode, decode, decodeRequest, header_fields, requireZeroZK_instr]
  | setres code =>
    simp [encode, decode, decodeRequest, header_fields, requireZeroZ_instr, decodeResolution_instr,
      wellFormed_setres.mp hwf]
  | readprom slot => simp [encode, decode, decodeRequest, header_fields, requireZeroZ_instr]
  | crcchk table => simp [encode, decode, decodeRequest, header_fields, requireZeroZK_instr, decodeTable_instr]
  | comp d2 d1 => simp [encode, decode, decodeRequest, header_fields, requireZeroZK_instr, decodeCounts_instr]

/-- Settles O6, instruction by instruction. -/
theorem decodeOfEncodeIsTheInstruction : Obligations.DecodeOfEncodeIsTheInstruction :=
  fun _ rest hwf => decode_encode_append hwf rest

/-- A header byte is what its three fields make it (R38). -/
theorem eq_header {h : Byte} {op : BitVec 4} {k : BitVec 3} (hop : (headerOp h).toNat = op.toNat)
    (hz : headerZ h = false) (hk : headerK h = k) : h = header op k := by
  rw [← header_of_fields h hz, BitVec.eq_of_toNat_eq hop, hk]

/-- An operation without operands is accepted from its one header byte only (R44). -/
theorem encode_of_plain {h : Byte} {op : BitVec 4} {i j : Instr} {payload rest : List Byte}
    (hdecode : requireZeroZK h (.instr j payload) = .instr i rest) (hop : (headerOp h).toNat = op.toNat)
    (hwf : WellFormed j) (hencode : encode j = [header op 0#3]) :
    WellFormed i ∧ h :: payload = encode i ++ rest := by
  obtain ⟨hz, hk, hgood⟩ := requireZeroZK_instr.mp hdecode
  obtain ⟨rfl, rfl⟩ := Decoded.instr.inj hgood
  exact ⟨hwf, by rw [hencode, ← eq_header hop hz hk, List.singleton_append]⟩

/-- The opcode map read backwards: the fields that were accepted make the header, and the payload is the operands'. -/
theorem encode_of_decodeRequest {h : Byte} {payload rest : List Byte} {i : Instr}
    (hdecode : decodeRequest h payload = .instr i rest) : WellFormed i ∧ h :: payload = encode i ++ rest := by
  unfold decodeRequest at hdecode
  split at hdecode
  case h_1 hop => exact encode_of_plain (op := 0x1#4) hdecode hop rfl rfl
  case h_2 hop => exact encode_of_plain (op := 0x2#4) hdecode hop rfl rfl
  case h_3 hop => exact encode_of_plain (op := 0x3#4) hdecode hop rfl rfl
  case h_4 hop =>
    obtain ⟨hz, hgood⟩ := requireZeroZ_instr.mp hdecode
    obtain ⟨hcode, rfl, rfl⟩ := decodeResolution_instr.mp hgood
    exact ⟨wellFormed_setres.mpr hcode, congrArg (· :: rest) (eq_header (op := 0x4#4) hop hz rfl)⟩
  case h_5 hop => exact encode_of_plain (op := 0x5#4) hdecode hop rfl rfl
  case h_6 hop =>
    obtain ⟨hz, hk, hgood⟩ := requireZeroZK_instr.mp hdecode
    obtain ⟨table, rfl, rfl⟩ := decodeTable_instr.mp hgood
    exact ⟨rfl, congrArg (· :: _) (eq_header (op := 0x6#4) hop hz hk)⟩
  case h_7 hop =>
    obtain ⟨hz, hk, hgood⟩ := requireZeroZK_instr.mp hdecode
    obtain ⟨d2, d1, rfl, rfl⟩ := decodeCounts_instr.mp hgood
    exact ⟨rfl, congrArg (· :: _) (eq_header (op := 0x7#4) hop hz hk)⟩
  case h_8 hop => exact encode_of_plain (op := 0x8#4) hdecode hop rfl rfl
  case h_9 hop =>
    obtain ⟨hz, hgood⟩ := requireZeroZ_instr.mp hdecode
    obtain ⟨rfl, rfl⟩ := Decoded.instr.inj hgood
    exact ⟨rfl, congrArg (· :: payload) (eq_header (op := 0x9#4) hop hz rfl)⟩
  case h_10 => cases hdecode

/-- Settles O7: some first byte is there, and the opcode map is read backwards from it. -/
theorem decodedBytesAreTheEncoding : Obligations.DecodedBytesAreTheEncoding := by
  intro bytes rest i hdecode
  cases bytes with
  | nil => cases hdecode
  | cons h payload => exact encode_of_decodeRequest hdecode

/-- Bytes that are an instruction's encoding decode to it, with nothing left over. -/
theorem decode_of_encode_eq {i : Instr} {bytes : List Byte} (hwf : WellFormed i) (hencode : encode i = bytes) :
    decode bytes = .instr i [] := by
  rw [← hencode, ← decode_encode_append hwf [], List.append_nil]

/-- Settles O5: each row of bytes is what the encoder writes for its operation. -/
theorem writtenOutRequestsDecode : Obligations.WrittenOutRequestsDecode :=
  ⟨decode_of_encode_eq rfl rfl, decode_of_encode_eq rfl rfl, decode_of_encode_eq rfl rfl,
   decode_of_encode_eq rfl rfl, decode_of_encode_eq rfl rfl, decode_of_encode_eq rfl rfl,
   decode_of_encode_eq rfl rfl, decode_of_encode_eq rfl rfl, decode_of_encode_eq rfl rfl⟩

/-! ### Requests at the head of the input -/

/-- An encoding is as long as its first byte says (R37). -/
theorem encode_shape (i : Instr) : Laws.EncodeShape.Statement i := by
  cases i with
  | init => exact Laws.EncodeShape.init
  | probe => exact Laws.EncodeShape.probe
  | devreset => exact Laws.EncodeShape.devreset
  | setres code => exact Laws.EncodeShape.setres code
  | load => exact Laws.EncodeShape.load
  | crcchk table => exact Laws.EncodeShape.crcchk table
  | comp d2 d1 => exact Laws.EncodeShape.comp d2 d1
  | readtp => exact Laws.EncodeShape.readtp
  | readprom slot => exact Laws.EncodeShape.readprom slot

/-- A row's bytes are as many as the first of them says (R37). -/
theorem tableBytes_length {nbits w : Nat} {h : Byte} {payload : List Byte}
    (hrow : tableBytes nbits w = h :: payload) : (h :: payload).length = requestLength h := by
  have hlength : (tableBytes nbits w).length = requestLength (BitVec.ofNat 8 (w % 2 ^ nbits)) := by
    simp [tableBytes]
  have hfirst : (tableBytes nbits w)[0]? = some h := by rw [hrow, List.getElem?_cons_zero]
  have hh : BitVec.ofNat 8 (w % 2 ^ nbits) = h := by
    simp only [tableBytes, List.getElem?_map, Option.map_eq_some_iff] at hfirst
    obtain ⟨j, hj, rfl⟩ := hfirst
    obtain ⟨hlt, rfl⟩ := List.getElem?_eq_some_iff.mp hj
    simp
  rw [← hrow, hlength, hh]

/-- A row that decodes is decoded to its last byte. -/
theorem decode_tableBytes {nbits w : Nat} {i : Instr} (hrow : decodeTableWord nbits w = some i) :
    decode (tableBytes nbits w) = .instr i [] := by
  unfold decodeTableWord at hrow
  split at hrow
  next j rest hdecode =>
    obtain rfl := Option.some.inj hrow
    obtain ⟨-, hbytes⟩ := decodedBytesAreTheEncoding _ _ _ hdecode
    obtain ⟨h, payload, hencode, -, hlength⟩ := encode_shape j
    rw [hencode, List.cons_append] at hbytes
    have hrest : rest.length = 0 := by
      have hrow := tableBytes_length hbytes
      rw [hencode] at hlength
      simp only [List.length_cons, List.length_append] at hrow hlength
      omega
    rw [hdecode, List.length_eq_zero_iff.mp hrest]
  next => cases hrow

/-! ### Reserved headers -/

/-- The rejections that refuse a request; bytes that are only not all there yet are none of them (R44, R45). -/
def Decoded.Reserved (d : Decoded) : Prop := ∃ why, d = .rejected why ∧ why ≠ .truncated

theorem not_reserved_instr (i : Instr) (rest : List Byte) : ¬ (Decoded.instr i rest).Reserved := by
  rintro ⟨why, h, -⟩
  cases h

@[simp] theorem reserved_rejected {why : Reject} : (Decoded.rejected why).Reserved ↔ why ≠ .truncated := by
  simp [Decoded.Reserved]

theorem requireZeroZ_reserved {h : Byte} {good : Decoded} :
    (requireZeroZ h good).Reserved ↔ h.toNat / 8 % 2 = 1 ∨ good.Reserved := by
  rw [← headerZ_iff]
  cases hz : headerZ h <;> simp [requireZeroZ, hz]

theorem requireZeroZK_reserved {h : Byte} {good : Decoded} (hgood : ¬ good.Reserved) :
    (requireZeroZK h good).Reserved ↔ h.toNat / 8 % 2 = 1 ∨ h.toNat % 8 ≠ 0 := by
  have hk : headerK h = 0#3 ↔ h.toNat % 8 = 0 := by
    rw [← headerK_toNat, ← BitVec.toNat_inj, BitVec.toNat_ofNat, Nat.zero_mod]
  rw [← headerZ_iff, Ne, ← hk]
  cases hz : headerZ h <;> by_cases hk0 : headerK h = 0#3 <;> simp [requireZeroZK, hz, hk0, hgood]

theorem decodeResolution_reserved {k : BitVec 3} {bs : List Byte} :
    (decodeResolution k bs).Reserved ↔ 6 ≤ k.toNat := by
  by_cases hk : k.toNat ≤ 5
  · simp only [decodeResolution, hk, if_true, not_reserved_instr, false_iff]
    omega
  · simp only [decodeResolution, hk, if_false, reserved_rejected]
    exact iff_of_true (by decide) (by omega)

theorem decodeTable_not_reserved (bs : List Byte) : ¬ (decodeTable bs).Reserved := by
  unfold decodeTable
  split
  · exact not_reserved_instr _ _
  · simp

theorem decodeCounts_not_reserved (bs : List Byte) : ¬ (decodeCounts bs).Reserved := by
  unfold decodeCounts
  split
  · exact not_reserved_instr _ _
  · simp

/-- Which header bytes are reserved, whatever follows them, in arithmetic on the byte (R38, R44, R45). -/
theorem decodeRequest_reserved (h : Byte) (bs : List Byte) :
    (decodeRequest h bs).Reserved ↔
      (h.toNat / 16 = 0 ∨ 10 ≤ h.toNat / 16) ∨ (h.toNat / 16 = 4 ∧ 6 ≤ h.toNat % 8) ∨ h.toNat / 8 % 2 = 1 ∨
      (h.toNat / 16 ≠ 4 ∧ h.toNat / 16 ≠ 9 ∧ h.toNat % 8 ≠ 0) := by
  unfold decodeRequest
  rw [headerOp_toNat]
  split
  case h_4 hop =>
    rw [requireZeroZ_reserved, decodeResolution_reserved, headerK_toNat]
    omega
  case h_6 hop =>
    rw [requireZeroZK_reserved (decodeTable_not_reserved bs)]
    omega
  case h_7 hop =>
    rw [requireZeroZK_reserved (decodeCounts_not_reserved bs)]
    omega
  case h_9 hop =>
    rw [requireZeroZ_reserved, or_iff_left (not_reserved_instr _ bs)]
    omega
  case h_10 =>
    refine iff_of_true (reserved_rejected.mpr (by decide)) (.inl ?_)
    simp only [imp_false] at *
    omega
  all_goals
    next hop =>
      rw [requireZeroZK_reserved (not_reserved_instr _ bs)]
      omega

end Sys2Proof

namespace Sys2Proof.Machine

/-! ### The step on an encoded request -/

/-- Settles O10: the row's bytes are all taken, so the instruction runs on the inputs that were there before. -/
theorem placedTableWordIsRunNext : Obligations.PlacedTableWordIsRunNext := by
  intro s nbits w i hrow
  have hfetch : fetch (s.withFetchWord nbits w).inputs = .request i s.inputs :=
    fetch_request (decode_tableBytes hrow) s.inputs
  exact step_of_fetch_request hfetch

/-- R45, R97: a well-formed instruction has a meaning in every state. -/
theorem exec_ne_refused {i : Instr} (hwf : WellFormed i) (s : State) (why : Refusal) : exec i s ≠ .refused why := by
  have hcases := exec_cases (allowsAll_true s.osr) i
  intro h
  rw [h] at hcases
  cases hcases with
  | refused code instr reserved =>
    subst instr
    exact reserved (wellFormed_setres.mp hwf)

theorem fetchReset_ne_reserved (inputs : List HostInput) (why : Refusal) : fetchReset inputs ≠ .reserved why := by
  unfold fetchReset
  split <;> simp

theorem fetchReset_ne_request (inputs : List HostInput) (i : Instr) (rest : List HostInput) :
    fetchReset inputs ≠ .request i rest := by
  unfold fetchReset
  split <;> simp

/-- What is fetched was decoded, so it is well-formed. -/
theorem wellFormed_of_fetch_request {inputs rest : List HostInput} {i : Instr}
    (hfetch : fetch inputs = .request i rest) : WellFormed i := by
  unfold fetch at hfetch
  split at hfetch
  case h_1 hdecode =>
    obtain ⟨rfl, -⟩ := Fetch.request.inj hfetch
    exact (decodedBytesAreTheEncoding _ _ _ hdecode).1
  case h_2 => exact absurd hfetch (fetchReset_ne_request _ _ _)
  all_goals cases hfetch

/-- The fetch refuses what the decoder calls reserved, and nothing else. -/
theorem fetch_reserved_iff (inputs : List HostInput) :
    (∃ why, fetch inputs = .reserved why) ↔ (decode (leadingBytes inputs)).Reserved := by
  unfold fetch
  split
  case h_1 hdecode => simp [hdecode, not_reserved_instr]
  case h_2 hdecode => simp [hdecode, fetchReset_ne_reserved]
  all_goals
    next hdecode => simp [hdecode]

/-- A step is a refusal exactly when the bytes at the head of the input are a reserved encoding. -/
theorem step_refused_iff (s : State) :
    (∃ why, step s = .refused why) ↔ (decode (leadingBytes s.inputs)).Reserved := by
  rw [← fetch_reserved_iff]
  cases hfetch : fetch s.inputs with
  | idle => simp [step, hfetch]
  | reset rest => simp [step, hfetch]
  | reserved why => simp [step, hfetch]
  | request i rest =>
    have hwf := wellFormed_of_fetch_request hfetch
    simp [step, hfetch, exec_ne_refused hwf]

/-- Settles O8: the byte at the head of the input is the header the decoder looks at. -/
theorem reservedHeadersAreRefused : Obligations.ReservedHeadersAreRefused := by
  intro s h more hinputs
  rw [step_refused_iff, hinputs]
  exact decodeRequest_reserved h (leadingBytes more)

/-! ### Command bytes -/

/-- `PROM_BASE` leaves room for the last slot's address (R5). -/
theorem promBase_le : Config.promBase.toNat ≤ 241 := by
  have hchoice := Config.promBaseChoice.isLt
  simp only [Config.promBase, BitVec.toNat_ofNat]
  omega

/-- R26, R49: the sum that makes a PROM address does not wrap. -/
theorem promCommand_toNat (slot : BitVec 3) :
    (promCommand slot).toNat = Config.promBase.toNat + 2 * slot.toNat := by
  have hslot := slot.isLt
  have hbase := promBase_le
  simp only [promCommand, Config.promStride, BitVec.toNat_add, BitVec.toNat_ofNat]
  omega

/-- R49: the resolution code is merged by OR into bits 3:1 of the base. -/
theorem convCommand_getLsbD (code : BitVec 3) (base : Byte) {j : Nat} (hj : j < 8) :
    (convCommand code base).getLsbD j =
      (base.getLsbD j || (decide (1 ≤ j) && decide (j ≤ 3) && code.getLsbD (j - 1))) := by
  rw [convCommand, BitVec.getLsbD_or, BitVec.getLsbD_shiftLeft, BitVec.getLsbD_setWidth, Bool.or_comm]
  by_cases h3 : j ≤ 3
  · have hj' : j - 1 < 8 := by omega
    have h1 : decide (1 ≤ j) = !decide (j < 1) := by simp [Nat.one_le_iff_ne_zero]
    simp only [hj, hj', h3, h1, decide_true, Bool.true_and, Bool.and_true]
  · have hcode : code.getLsbD (j - 1) = false := BitVec.getLsbD_of_ge code (j - 1) (by omega)
    simp only [hcode, Bool.and_false]

/-- Settles O12: the last slot's address is `PROM_BASE + 14`. -/
theorem commandBytesFollowTheFormulas : Obligations.CommandBytesFollowTheFormulas := by
  refine ⟨fun slot => ⟨promCommand_toNat slot, ?_⟩, fun code base j => convCommand_getLsbD code base⟩
  have hslot := slot.isLt
  have hbase := promBase_le
  rw [promCommand_toNat]
  omega

/-! ### Responses -/

/-- R47: the status byte is the code, plus 4 while `VALID` is 1. -/
theorem statusByte_toNat (st : Status) (valid : Bool) :
    (statusByte st valid).toNat = st.code.toNat + (if valid then 4 else 0) := by
  cases valid <;> rcases st with _ | (_ | _ | _) <;> rfl

/-- R46: code 0 is the status OK. -/
theorem code_toNat_eq_zero {st : Status} : st.code.toNat = 0 ↔ st = .ok := by
  rcases st with _ | (_ | _ | _) <;> simp [Status.code]

/-- A response's form follows from its status and the length of its data (R46 to R48). -/
theorem respond_form {i : Instr} {st : Status} {data : List Byte}
    (hlen : data.length = if st = .ok then dataLength i else 0) (s : State) :
    ∃ (r : Response) (code : Nat), (respond st data s).responses = s.responses ++ [r] ∧ code < 4 ∧
      r.status.toNat = code + (if (respond st data s).valid then 4 else 0) ∧
      r.data.length = if code = 0 then dataLength i else 0 :=
  ⟨⟨statusByte st s.valid, data⟩, st.code.toNat, rfl, st.code.isLt, statusByte_toNat st s.valid,
   by simpa only [code_toNat_eq_zero] using hlen⟩

/-- Settles O46: every end that answers a next state is one response, after updates that leave the responses alone. -/
theorem everyRequestGetsOneResponse : Obligations.EveryRequestGetsOneResponse := by
  intro i s t hexec
  cases exec_next_cases (allowsAll_true s.osr) hexec with
  | responds k es st data events len => exact respond_form len (s.after k es)
  | sets code instr wf => exact respond_form (i := i) (by simp [instr, dataLength]) (s.setOsr code)
  | commits k es table l fs st data instr empty ok before afterwards len =>
    exact respond_form len (((s.after k es).commit table).after l fs)

/-! ### The nine forms -/

theorem asmPlain_eq_some {i j : Instr} {operands : List Nat} :
    asmPlain j operands = some i ↔ operands = [] ∧ i = j := by
  cases operands <;> simp [asmPlain, eq_comm]

theorem asmSetres_eq_some {i : Instr} {operands : List Nat} :
    asmSetres operands = some i ↔
      ∃ code : BitVec 3, code.toNat ≤ 5 ∧ operands = [256 * 2 ^ code.toNat] ∧ i = .setres code := by
  have hrate := resolutionCodesNameTheSixRates
  match operands with
  | [] => simp [asmSetres]
  | [rate] => simp [asmSetres, hrate rate, and_assoc, eq_comm]
  | _ :: _ :: _ => simp [asmSetres]

theorem asmReadprom_eq_some {i : Instr} {operands : List Nat} :
    asmReadprom operands = some i ↔ ∃ slot : BitVec 3, operands = [slot.toNat] ∧ i = .readprom slot := by
  constructor
  · intro h
    unfold asmReadprom at h
    split at h
    next n =>
      obtain ⟨hn, h⟩ := Option.ite_none_right_eq_some.mp h
      exact ⟨BitVec.ofNat 3 n, by simp; omega, (Option.some.inj h).symm⟩
    next => cases h
  · rintro ⟨slot, rfl, rfl⟩
    have hslot := slot.isLt
    simp [asmReadprom, show slot.toNat ≤ 7 by omega]

theorem asmComp_eq_some {i : Instr} {operands : List Nat} :
    asmComp operands = some i ↔ ∃ d2 d1 : RawCount, operands = [d2.toNat, d1.toNat] ∧ i = .comp d2 d1 := by
  constructor
  · intro h
    unfold asmComp at h
    split at h
    next n2 n1 =>
      obtain ⟨⟨h2, h1⟩, h⟩ := Option.ite_none_right_eq_some.mp h
      refine ⟨BitVec.ofNat 24 n2, BitVec.ofNat 24 n1, ?_, (Option.some.inj h).symm⟩
      rw [BitVec.toNat_ofNat, BitVec.toNat_ofNat, Nat.mod_eq_of_lt h2, Nat.mod_eq_of_lt h1]
    next => cases h
  · rintro ⟨d2, d1, rfl, rfl⟩
    simp [asmComp, d2.isLt, d1.isLt]

theorem asmCrcchk_eq_some {i : Instr} {operands : List Nat} :
    asmCrcchk operands = some i ↔ ∃ t : Table, operands = t.toList.map BitVec.toNat ∧ i = .crcchk t := by
  constructor
  · intro h
    unfold asmCrcchk at h
    split at h
    next w0 w1 w2 w3 w4 w5 w6 w7 =>
      obtain ⟨hlt, h⟩ := Option.ite_none_right_eq_some.mp h
      refine ⟨_, ?_, (Option.some.inj h).symm⟩
      simp at hlt ⊢
      omega
    next => cases h
  · rintro ⟨t, rfl, rfl⟩
    have hlt (w : Word) : w.toNat < 65536 := w.isLt
    simp [asmCrcchk, table_toList, hlt, table_of_slots]

/-- The table of mnemonics read backwards: what assembles is one of the nine forms. -/
theorem asmForm_of_asmInstr {mnemonic : List Char} {operands : List Nat} {i : Instr}
    (h : asmInstr mnemonic operands = some i) : AsmForm (String.ofList mnemonic) operands i := by
  unfold asmInstr at h
  split_ifs at h with hm hm hm hm hm hm hm hm hm <;> subst hm
  · obtain ⟨rfl, rfl⟩ := asmPlain_eq_some.mp h
    exact .init
  · obtain ⟨rfl, rfl⟩ := asmPlain_eq_some.mp h
    exact .probe
  · obtain ⟨rfl, rfl⟩ := asmPlain_eq_some.mp h
    exact .devreset
  · obtain ⟨code, hcode, rfl, rfl⟩ := asmSetres_eq_some.mp h
    exact .setres code hcode
  · obtain ⟨rfl, rfl⟩ := asmPlain_eq_some.mp h
    exact .load
  · obtain ⟨t, rfl, rfl⟩ := asmCrcchk_eq_some.mp h
    exact .crcchk t
  · obtain ⟨d2, d1, rfl, rfl⟩ := asmComp_eq_some.mp h
    exact .comp d2 d1
  · obtain ⟨rfl, rfl⟩ := asmPlain_eq_some.mp h
    exact .readtp
  · obtain ⟨slot, rfl, rfl⟩ := asmReadprom_eq_some.mp h
    exact .readprom slot

/-- The table of mnemonics read forwards. -/
theorem asmInstr_of_asmForm {mnemonic : String} {operands : List Nat} {i : Instr}
    (h : AsmForm mnemonic operands i) : asmInstr mnemonic.toList operands = some i := by
  cases h with
  | init | probe | devreset | load | readtp => rfl
  | setres code wf => exact asmSetres_eq_some.mpr ⟨code, wf, rfl, rfl⟩
  | crcchk t => exact asmCrcchk_eq_some.mpr ⟨t, rfl, rfl⟩
  | comp d2 d1 => exact asmComp_eq_some.mpr ⟨d2, d1, rfl, rfl⟩
  | readprom slot => exact asmReadprom_eq_some.mpr ⟨slot, rfl, rfl⟩

/-- Settles O53: the table of mnemonics, read in both directions. -/
theorem assemblerHasTheNineForms : Obligations.AssemblerHasTheNineForms := by
  intro mnemonic operands i
  constructor
  · intro h
    rw [← String.ofList_toList (s := mnemonic)]
    exact asmForm_of_asmInstr h
  · exact asmInstr_of_asmForm

theorem AsmForm.wellFormed {mnemonic : String} {operands : List Nat} {i : Instr} (h : AsmForm mnemonic operands i) :
    WellFormed i := by
  cases h with
  | setres code wf => exact decide_eq_true wf
  | _ => rfl

/-- A line that assembles does so by its mnemonic and operands. -/
theorem asmInstr_of_assemble {line : List Char} {i : Instr} (h : assemble line = some i) :
    ∃ mnemonic operands, asmInstr mnemonic operands = some i := by
  simp only [assemble] at h
  split at h
  next => exact ⟨_, _, h⟩
  next => cases h

/-- Settles O14: a line assembles by one of the nine forms, and their operands are in range. -/
theorem assembledLinesAreWellFormed : Obligations.AssembledLinesAreWellFormed := by
  intro line i h
  obtain ⟨mnemonic, operands, hinstr⟩ := asmInstr_of_assemble h
  have hwf := (asmForm_of_asmInstr hinstr).wellFormed
  exact ⟨hwf, decode_of_encode_eq hwf rfl⟩

/-! ### Numbers -/

/-- The characters of the digits up to 15, small letters for those above 9. -/
theorem toNat_digitChar {d : Nat} (hd : d < 16) : d.digitChar.toNat = if d < 10 then d + 48 else d + 87 := by
  revert d
  decide

theorem isUpper_iff (c : Char) : c.isUpper = true ↔ 65 ≤ c.toNat ∧ c.toNat ≤ 90 := by
  simp [Char.isUpper, UInt32.le_iff_toNat_le]

theorem toNat_toLower (c : Char) :
    c.toLower.toNat = if 65 ≤ c.toNat ∧ c.toNat ≤ 90 then c.toNat + 32 else c.toNat := by
  split_ifs with h
  · rw [Char.toLower_eq_of_isUpper ((isUpper_iff c).mpr h), Char.toNat_ofNat, if_pos (.inl (by omega))]
  · rw [Char.toLower_eq_of_not_isUpper (mt (isUpper_iff c).mp h)]

theorem digitValue_ten (c : Char) (d : Nat) : digitValue 10 c = some d ↔ d < 10 ∧ c = d.digitChar := by
  rw [← Char.toNat_inj]
  simp only [digitValue, Option.ite_none_right_eq_some, Option.some.injEq]
  constructor
  · rintro ⟨hlt, rfl⟩
    refine ⟨hlt, ?_⟩
    rw [toNat_digitChar (by omega)]
    split_ifs at hlt ⊢ <;> omega
  · rintro ⟨hd, hc⟩
    rw [toNat_digitChar (by omega), if_pos hd] at hc
    split_ifs <;> omega

theorem digitValue_sixteen (c : Char) (d : Nat) : digitValue 16 c = some d ↔ d < 16 ∧ c.toLower = d.digitChar := by
  rw [← Char.toNat_inj, toNat_toLower]
  simp only [digitValue, Option.ite_none_right_eq_some, Option.some.injEq]
  constructor
  · rintro ⟨hlt, rfl⟩
    refine ⟨hlt, ?_⟩
    rw [toNat_digitChar hlt]
    split_ifs at hlt ⊢ <;> omega
  · rintro ⟨hd, hc⟩
    rw [toNat_digitChar hd] at hc
    split_ifs at hc ⊢ <;> omega

/-- A row of digits is read digit by digit; what was read before it counts as one digit more. -/
theorem digitsValue_eq_some {base acc n : Nat} {cs : List Char} :
    digitsValue base acc cs = some n ↔
      ∃ digits : List Nat, cs.map (digitValue base) = digits.map some ∧
        n = Nat.ofDigits base (digits.reverse ++ [acc]) := by
  induction cs generalizing acc with
  | nil =>
    constructor
    · intro h
      exact ⟨[], rfl, by simpa [digitsValue] using h.symm⟩
    · rintro ⟨digits, hmap, rfl⟩
      obtain rfl : digits = [] := by simpa using hmap.symm
      simp [digitsValue]
  | cons c cs ih =>
    cases hc : digitValue base c with
    | none =>
      simp only [digitsValue, hc, List.map_cons, reduceCtorEq, false_iff]
      rintro ⟨digits, hmap, -⟩
      cases digits <;> simp at hmap
    | some d =>
      have hvalue (digits : List Nat) : Nat.ofDigits base (digits.reverse ++ [acc * base + d]) =
          Nat.ofDigits base ((d :: digits).reverse ++ [acc]) := by
        have hpair : Nat.ofDigits base [acc * base + d] = Nat.ofDigits base ([d] ++ [acc]) := by
          simp only [List.singleton_append, Nat.ofDigits_cons, Nat.ofDigits_nil]
          ring
        rw [List.reverse_cons, List.append_assoc, Nat.ofDigits_append, Nat.ofDigits_append, hpair]
      simp only [digitsValue, hc, ih, hvalue, List.map_cons]
      constructor
      · rintro ⟨digits, hmap, rfl⟩
        exact ⟨d :: digits, by rw [hmap, List.map_cons], rfl⟩
      · rintro ⟨digits, hmap, rfl⟩
        match digits, hmap with
        | d' :: digits, hmap =>
          simp only [List.map_cons, List.cons.injEq, Option.some.injEq] at hmap
          obtain ⟨rfl, hmap⟩ := hmap
          exact ⟨digits, hmap, rfl⟩

section
variable {base : Nat} {f : Char → Char} (hf : ∀ c d, digitValue base c = some d ↔ d < base ∧ f c = d.digitChar)
include hf

/-- The digits read from a row are those whose characters stand in it, once `f` has taken them to small letters. -/
theorem map_digitValue_iff (cs : List Char) (digits : List Nat) :
    cs.map (digitValue base) = digits.map some ↔ (∀ d ∈ digits, d < base) ∧ cs.map f = digits.map Nat.digitChar := by
  induction cs generalizing digits with
  | nil => cases digits <;> simp
  | cons c cs ih =>
    cases digits with
    | nil => simp
    | cons d digits =>
      simp only [List.map_cons, List.cons.injEq, ih, hf, List.forall_mem_cons]
      tauto

/-- A row of at least one digit has the value of its digits, the last of them the least significant. -/
theorem digitRow_iff {n : Nat} (row : List Char) :
    row ≠ [] ∧ digitsValue base 0 row = some n ↔
      ∃ digits : List Nat, digits ≠ [] ∧ (∀ d ∈ digits, d < base) ∧ row.map f = digits.map Nat.digitChar ∧
        n = Nat.ofDigits base digits.reverse := by
  simp only [digitsValue_eq_some, map_digitValue_iff hf, Nat.ofDigits_append_zero]
  constructor
  · rintro ⟨hrow, digits, ⟨hlt, hmap⟩, hn⟩
    refine ⟨digits, ?_, hlt, hmap, hn⟩
    rintro rfl
    exact hrow (List.map_eq_nil_iff.mp hmap)
  · rintro ⟨digits, hne, hlt, hmap, hn⟩
    refine ⟨?_, digits, ⟨hlt, hmap⟩, hn⟩
    rintro rfl
    exact hne (List.map_eq_nil_iff.mp hmap.symm)

end

theorem parseNumber_hex {row : List Char} {n : Nat} :
    parseNumber ('0' :: 'x' :: row) = some n ↔ row ≠ [] ∧ digitsValue 16 0 row = some n := by
  cases row <;> simp [parseNumber]

theorem parseNumber_decimal {text : List Char} {n : Nat} (hx : ∀ row, text ≠ '0' :: 'x' :: row) :
    parseNumber text = some n ↔ text ≠ [] ∧ digitsValue 10 0 text = some n := by
  unfold parseNumber
  split
  · simp
  · exact absurd rfl (hx _)
  · exact absurd rfl (hx _)
  · simp

/-- The `x` of a hex number is no decimal digit, so no text is both. -/
theorem hex_ne_decimal {digits : List Nat} (hlt : ∀ d ∈ digits, d < 10) (row : List Char) :
    '0' :: 'x' :: row ≠ digits.map Nat.digitChar := by
  intro h
  have hmem : 'x' ∈ digits.map Nat.digitChar := by simp [← h]
  obtain ⟨d, hd, hchar⟩ := List.mem_map.mp hmem
  have hx : ∀ d < 10, Nat.digitChar d ≠ 'x' := by decide
  exact hx d (hlt d hd) hchar

/-- Settles O54: what starts with `0x` is read in base 16 with letters taken to small ones, the rest in base 10. -/
theorem assemblerNumbersAreDecimalOrHex : Obligations.AssemblerNumbersAreDecimalOrHex := by
  intro text n
  by_cases hx : ∃ row, text = '0' :: 'x' :: row
  · obtain ⟨row, rfl⟩ := hx
    rw [parseNumber_hex, digitRow_iff digitValue_sixteen]
    constructor
    · rintro ⟨digits, hne, hlt, hmap, hn⟩
      exact ⟨digits, hne, .inr ⟨hlt, ⟨row, rfl, hmap⟩, hn⟩⟩
    · rintro ⟨digits, hne, ⟨hlt, htext, -⟩ | ⟨hlt, ⟨row', htext, hmap⟩, hn⟩⟩
      · exact absurd htext (hex_ne_decimal hlt row)
      · obtain rfl : row = row' := by simpa using htext
        exact ⟨digits, hne, hlt, hmap, hn⟩
  · rw [parseNumber_decimal (not_exists.mp hx), digitRow_iff (f := id) digitValue_ten, List.map_id]
    constructor
    · rintro ⟨digits, hne, hlt, htext, hn⟩
      exact ⟨digits, hne, .inl ⟨hlt, htext, hn⟩⟩
    · rintro ⟨digits, hne, ⟨hlt, htext, hn⟩ | ⟨hlt, ⟨row, htext, -⟩, -⟩⟩
      · exact ⟨digits, hne, hlt, htext, hn⟩
      · exact absurd ⟨row, htext⟩ hx

/-! ### Blanks and commas -/

/-- A text that begins and ends with characters that are not blanks. -/
def Trimmed (cs : List Char) : Prop :=
  (∃ c, cs.head? = some c ∧ isBlank c = false) ∧ ∃ c, cs.getLast? = some c ∧ isBlank c = false

theorem Trimmed.ne_nil {cs : List Char} (h : Trimmed cs) : cs ≠ [] := by
  obtain ⟨⟨c, hc, -⟩, -⟩ := h
  rintro rfl
  cases hc

theorem trimmed_of_forall {cs : List Char} (hne : cs ≠ []) (h : ∀ c ∈ cs, isBlank c = false) : Trimmed cs :=
  ⟨⟨_, List.head?_eq_some_head hne, h _ (List.head_mem hne)⟩,
   ⟨_, List.getLast?_eq_some_getLast hne, h _ (List.getLast_mem hne)⟩⟩

theorem Trimmed.append {cs ds : List Char} (hc : Trimmed cs) (between : List Char) (hd : Trimmed ds) :
    Trimmed (cs ++ between ++ ds) := by
  obtain ⟨⟨c, hhead, hblank⟩, -⟩ := hc
  obtain ⟨-, d, hlast, hblank'⟩ := hd
  exact ⟨⟨c, by simp [List.head?_append, hhead], hblank⟩, ⟨d, by simp [List.getLast?_append, hlast], hblank'⟩⟩

theorem dropWhile_isBlank {cs : List Char} {c : Char} (hhead : cs.head? = some c) (hblank : isBlank c = false) :
    cs.dropWhile isBlank = cs := by
  obtain ⟨cs, rfl⟩ := List.head?_eq_some_iff.mp hhead
  simp [hblank]

theorem Trimmed.trimBlanks_eq {cs : List Char} (h : Trimmed cs) : trimBlanks cs = cs := by
  obtain ⟨⟨c, hhead, hc⟩, d, hlast, hd⟩ := h
  rw [trimBlanks, dropWhile_isBlank hhead hc, dropWhile_isBlank (by rw [List.head?_reverse, hlast]) hd,
    List.reverse_reverse]

theorem trimBlanks_blank_cons (cs : List Char) : trimBlanks (' ' :: cs) = trimBlanks cs := rfl

theorem trimmed_intercalate {texts : List (List Char)} (hne : texts ≠ []) (h : ∀ t ∈ texts, Trimmed t) :
    Trimmed ([',', ' '].intercalate texts) := by
  induction texts with
  | nil => exact absurd rfl hne
  | cons t texts ih =>
    cases texts with
    | nil => simpa using h
    | cons u texts =>
      rw [List.forall_mem_cons] at h
      rw [List.intercalate_cons_cons]
      exact h.1.append _ (ih (by simp) h.2)

theorem splitCommas_of_no_comma {piece : List Char} (h : ',' ∉ piece) : splitCommas piece = [piece] := by
  induction piece with
  | nil => rfl
  | cons c piece ih =>
    rw [List.mem_cons, not_or] at h
    rw [splitCommas, ih h.2]
    exact Ne.symm h.1

theorem splitCommas_append {piece : List Char} (h : ',' ∉ piece) (rest : List Char) :
    splitCommas (piece ++ ',' :: rest) = piece :: splitCommas rest := by
  induction piece with
  | nil => rfl
  | cons c piece ih =>
    rw [List.mem_cons, not_or] at h
    rw [List.cons_append, splitCommas, ih h.2]
    exact Ne.symm h.1

theorem splitCommas_intercalate {texts : List (List Char)} (hne : texts ≠ []) (h : ∀ t ∈ texts, ',' ∉ t) :
    splitCommas (' ' :: [',', ' '].intercalate texts) = texts.map (' ' :: ·) := by
  induction texts with
  | nil => exact absurd rfl hne
  | cons t texts ih =>
    rw [List.forall_mem_cons] at h
    have ht : ',' ∉ ' ' :: t := by simp [h.1]
    cases texts with
    | nil => simpa using splitCommas_of_no_comma ht
    | cons u texts =>
      rw [List.intercalate_cons_cons, List.append_assoc, ← List.cons_append]
      exact (splitCommas_append ht _).trans (congrArg _ (ih (by simp) h.2))

/-! ### The texts of numbers -/

theorem digitValue_ge {base v : Nat} {c : Char} (h : digitValue base c = some v) : 48 ≤ c.toNat := by
  simp only [digitValue, Option.ite_none_right_eq_some, Option.some.injEq] at h
  obtain ⟨hlt, rfl⟩ := h
  split_ifs at hlt <;> omega

theorem digitsValue_ge {base acc n : Nat} {cs : List Char} (h : digitsValue base acc cs = some n) :
    ∀ c ∈ cs, 48 ≤ c.toNat := by
  intro c hc
  obtain ⟨digits, hmap, -⟩ := digitsValue_eq_some.mp h
  obtain ⟨d, -, hd⟩ := List.mem_map.mp (hmap ▸ List.mem_map_of_mem hc : digitValue base c ∈ digits.map some)
  exact digitValue_ge hd.symm

/-- No character of a number comes before `0`, so it holds neither blanks nor commas. -/
theorem parseNumber_ge {text : List Char} {n : Nat} (h : parseNumber text = some n) :
    ∀ c ∈ text, 48 ≤ c.toNat := by
  by_cases hx : ∃ row, text = '0' :: 'x' :: row
  · obtain ⟨row, rfl⟩ := hx
    have hrow := digitsValue_ge (parseNumber_hex.mp h).2
    simp only [List.forall_mem_cons]
    exact ⟨by decide, by decide, hrow⟩
  · exact digitsValue_ge ((parseNumber_decimal (not_exists.mp hx)).mp h).2

theorem trimmed_of_parseNumber {text : List Char} {n : Nat} (h : parseNumber text = some n) : Trimmed text := by
  refine trimmed_of_forall (by rintro rfl; cases h) fun c hc => ?_
  have hge := parseNumber_ge h c hc
  simp only [isBlank, Bool.or_eq_false_iff, beq_eq_false_iff_ne]
  constructor <;> rintro rfl <;> revert hge <;> decide

theorem no_comma_of_parseNumber {text : List Char} {n : Nat} (h : parseNumber text = some n) : ',' ∉ text := by
  intro hc
  have hge := parseNumber_ge h _ hc
  revert hge
  decide

theorem parsePieces_of_numbers {texts : List (List Char)} {numbers : List Nat}
    (h : texts.map parseNumber = numbers.map some) : parsePieces (texts.map (' ' :: ·)) = some numbers := by
  induction texts generalizing numbers with
  | nil =>
    obtain rfl : numbers = [] := by simpa using h.symm
    rfl
  | cons t texts ih =>
    match numbers, h with
    | n :: numbers, h =>
      simp only [List.map_cons, List.cons.injEq] at h
      obtain ⟨hn, h⟩ := h
      simp [parsePieces, trimBlanks_blank_cons, (trimmed_of_parseNumber hn).trimBlanks_eq, hn, ih h]

/-- Each text joined into a line is a number. -/
theorem exists_number {texts : List (List Char)} {numbers : List Nat} (h : texts.map parseNumber = numbers.map some) :
    ∀ t ∈ texts, ∃ n, parseNumber t = some n := by
  intro t ht
  obtain ⟨n, -, hn⟩ := List.mem_map.mp (h ▸ List.mem_map_of_mem ht : parseNumber t ∈ numbers.map some)
  exact ⟨n, hn.symm⟩

/-! ### Lines -/

/-- The mnemonic ends at the first blank, and the operands begin there. -/
theorem assemble_of_parts {mnemonic operands : List Char} {numbers : List Nat}
    (hblank : ∀ c ∈ mnemonic, isBlank c = false) (htrim : Trimmed (mnemonic ++ operands))
    (hoperands : operands = [] ∨ ∃ rest, operands = ' ' :: rest) (hparse : parseOperands operands = some numbers) :
    assemble (mnemonic ++ operands) = asmInstr (mnemonic.map Char.toUpper) numbers := by
  have htake : (mnemonic ++ operands).takeWhile (fun c => !isBlank c) = mnemonic := by
    rw [List.takeWhile_append_of_pos (by simpa using hblank)]
    rcases hoperands with rfl | ⟨rest, rfl⟩ <;> simp [isBlank]
  have hdrop : (mnemonic ++ operands).dropWhile (fun c => !isBlank c) = operands := by
    rw [List.dropWhile_append_of_pos (by simpa using hblank)]
    rcases hoperands with rfl | ⟨rest, rfl⟩ <;> simp [isBlank]
  simp only [assemble, htrim.trimBlanks_eq, htake, hdrop, hparse]

/-- A line of a mnemonic and its operands is read as these, the mnemonic in capitals (R50). -/
theorem assemble_line {mnemonic : List Char} {texts : List (List Char)} {numbers : List Nat} (hne : mnemonic ≠ [])
    (hmnemonic : ∀ c ∈ mnemonic, c ≠ ' ' ∧ c ≠ '\t') (hnumbers : texts.map parseNumber = numbers.map some) :
    assemble (mnemonic ++ (if texts = [] then [] else ' ' :: [',', ' '].intercalate texts)) =
      asmInstr (mnemonic.map Char.toUpper) numbers := by
  have hblank : ∀ c ∈ mnemonic, isBlank c = false := by simpa [isBlank] using hmnemonic
  have htrim := trimmed_of_forall hne hblank
  split_ifs with htexts
  · subst htexts
    obtain rfl : numbers = [] := by simpa using hnumbers.symm
    exact assemble_of_parts hblank (by rwa [List.append_nil]) (.inl rfl) rfl
  · have hnumber := exists_number hnumbers
    have hjoined : Trimmed ([',', ' '].intercalate texts) :=
      trimmed_intercalate htexts fun t ht => (hnumber t ht).elim fun _ => trimmed_of_parseNumber
    refine assemble_of_parts hblank ?_ (.inr ⟨_, rfl⟩) ?_
    · simpa using htrim.append [' '] hjoined
    · rw [parseOperands, trimBlanks_blank_cons, hjoined.trimBlanks_eq, if_neg hjoined.ne_nil,
        splitCommas_intercalate htexts fun t ht => (hnumber t ht).elim fun _ => no_comma_of_parseNumber]
      exact parsePieces_of_numbers hnumbers

/-- Every number has a text: its decimal digits after a zero. -/
theorem exists_numberText (n : Nat) : ∃ text, parseNumber text = some n := by
  refine ⟨_, (assemblerNumbersAreDecimalOrHex _ n).mpr ⟨0 :: (Nat.digits 10 n).reverse, by simp, .inl ⟨?_, rfl, ?_⟩⟩⟩
  · simpa using fun d hd => Nat.digits_lt_base (by decide) hd
  · rw [List.reverse_cons, List.reverse_reverse, Nat.ofDigits_append_zero, Nat.ofDigits_digits]

theorem exists_numberTexts (numbers : List Nat) :
    ∃ texts : List (List Char), texts.map parseNumber = numbers.map some := by
  choose text htext using exists_numberText
  exact ⟨numbers.map text, by simp [htext]⟩

/-- Every well-formed instruction has one of the nine forms. -/
theorem exists_asmForm {i : Instr} (hwf : WellFormed i) : ∃ mnemonic operands, AsmForm mnemonic operands i := by
  cases i with
  | init => exact ⟨_, _, .init⟩
  | probe => exact ⟨_, _, .probe⟩
  | devreset => exact ⟨_, _, .devreset⟩
  | setres code => exact ⟨_, _, .setres code (of_decide_eq_true hwf)⟩
  | load => exact ⟨_, _, .load⟩
  | crcchk t => exact ⟨_, _, .crcchk t⟩
  | comp d2 d1 => exact ⟨_, _, .comp d2 d1⟩
  | readtp => exact ⟨_, _, .readtp⟩
  | readprom slot => exact ⟨_, _, .readprom slot⟩

/-- A mnemonic is a word in capitals. -/
theorem AsmForm.mnemonic_capitals {mnemonic : String} {operands : List Nat} {i : Instr}
    (h : AsmForm mnemonic operands i) :
    mnemonic.toList ≠ [] ∧ (∀ c ∈ mnemonic.toList, c ≠ ' ' ∧ c ≠ '\t') ∧
      mnemonic.toList.map Char.toUpper = mnemonic.toList := by
  cases h <;> exact ⟨by simp, by simp, rfl⟩

/-- Settles O55: a line is read as its mnemonic and operands, and the form of an instruction makes such a line. -/
theorem assemblerLinesHoldMnemonicAndOperands : Obligations.AssemblerLinesHoldMnemonicAndOperands := by
  refine ⟨fun _ _ _ => assemble_line, fun i hwf => ?_⟩
  obtain ⟨mnemonic, operands, hform⟩ := exists_asmForm hwf
  obtain ⟨texts, htexts⟩ := exists_numberTexts operands
  obtain ⟨hne, hblank, hupper⟩ := hform.mnemonic_capitals
  refine ⟨_, (assemble_line hne hblank htexts).trans ?_⟩
  rw [hupper]
  exact asmInstr_of_asmForm hform

end Sys2Proof.Machine

namespace Sys2Proof.Machine

/-! ### The bytes of a response -/

@[simp] theorem statusByte_ok (valid : Bool) :
    statusByte .ok valid = if valid then 0x04 else 0x00 := by
  cases valid <;> rfl

@[simp] theorem statusByte_noAcknowledge (valid : Bool) :
    statusByte (.error .noAcknowledge) valid = if valid then 0x05 else 0x01 := by
  cases valid <;> rfl

@[simp] theorem statusByte_transferError (valid : Bool) :
    statusByte (.error .transferError) valid = if valid then 0x06 else 0x02 := by
  cases valid <;> rfl

/-- R48, R59: PROBE's byte is 1 for an acknowledge and 0 for both other statuses. -/
theorem connectedByte_beq_ack (st : BusStatus) :
    connectedByte (st == .ack) = if st = .ack then 0x01 else 0x00 := by
  cases st <;> rfl

/-! ### The thin operations -/

theorem exec_init (s : State) : exec .init s = .next (respond .ok [] (s.after 0 [.ini])) := by
  simp only [exec, execInit, record_eq_after, finish_ok]

section
variable {s : State} {st : BusStatus} {bytes : List Byte} (h : s.answerAt 0 = .answered st bytes)
include h

theorem exec_probe_answered :
    exec .probe s = .next (respond .ok [connectedByte (st == .ack)] (s.after 1 [.probe st])) := by
  have hprobe := busProbe_answered ((nextAnswer_eq s).trans h)
  simp only [exec, execProbe, hprobe, ok_andThen, finish_ok]

/-- The check of the write's status decides how DEVRESET ends (R56, R60). -/
theorem exec_devreset_answered :
    exec .devreset s =
      ((check st (s.after 1 [.write Config.cmdReset st])).andThen fun _ s => .ok [] s).finish := by
  have hwrite := checkedWrite_answered (b := Config.cmdReset) ((nextAnswer_eq s).trans h)
  simp only [exec, execDevreset, hwrite]

end

/-- Settles O15: INIT takes no answer, and its one event is INI. -/
theorem initRecordsIniOnly : Obligations.InitRecordsIniOnly := by
  refine ⟨decode_of_encode_eq rfl rfl, fun s => ?_⟩
  simp [exec_init, State.after]

/-- Settles O16: the status is recorded as it came, and none of the three is checked. -/
theorem probeReportsTheAcknowledge : Obligations.ProbeReportsTheAcknowledge := by
  refine ⟨decode_of_encode_eq rfl rfl, fun s st bytes hanswer => ?_⟩
  simp [exec_probe_answered hanswer, connectedByte_beq_ack, State.after]

/-- Settles O17: the write is recorded with its status, which the check turns into the response's. -/
theorem devresetSendsTheResetCommand : Obligations.DevresetSendsTheResetCommand := by
  refine ⟨decode_of_encode_eq rfl rfl, fun s st bytes hanswer => ?_⟩
  rw [exec_devreset_answered hanswer]
  cases st with
  | ack | nack | err => simp [State.after]

end Sys2Proof.Machine

namespace Sys2Proof.Machine

/-! ### The CRC on sums of tables -/

theorem word_and_xor_distrib (a b m : Word) : (a ^^^ b) &&& m = (a &&& m) ^^^ (b &&& m) := by
  ext i hi
  simp [Bool.and_xor_distrib_right]

/-- The slotwise XOR of two tables, as R71(a) takes it. -/
abbrev xorTables (a b : Table) : Table := Vector.zipWith (· ^^^ ·) a b

theorem bitstream_workingCopy_xorTables (a b : Table) :
    bitstream (workingCopy (xorTables a b)) =
      List.zipWith (· ^^^ ·) (bitstream (workingCopy a)) (bitstream (workingCopy b)) := by
  simp [bitstream_workingCopy, word_and_xor_distrib, BitVec.ushiftRight_xor_distrib]

theorem crc4_xorTables (a b : Table) : crc4 (xorTables a b) = crc4 a ^^^ crc4 b := by
  have hlength : (bitstream (workingCopy a)).length = (bitstream (workingCopy b)).length := by
    simp [bitstream_workingCopy]
  have hrem := crcRemainder_xor _ _ hlength 0x0000#16 0x0000#16
  rw [BitVec.xor_self, ← bitstream_workingCopy_xorTables] at hrem
  simp only [crc4, hrem, BitVec.extractLsb'_xor]

theorem storedCrc_xorTables (a b : Table) : storedCrc (xorTables a b) = storedCrc a ^^^ storedCrc b := by
  simp [storedCrc, BitVec.extractLsb'_xor]

/-- Settles O20: each part of the CRC is linear: the working copy and its bytes, the remainder, the top nibble. -/
theorem crcIsLinear : Obligations.CrcIsLinear := crc4_xorTables

/-! ### Single-bit flips -/

/-- The table that is zero but for one bit (R71(b)). -/
def oneBit (slot : BitVec 3) (bit : Nat) : Table := setSlot emptyStaging slot (1#16 <<< bit)

theorem flip_eq_xorTables (t : Table) (slot : BitVec 3) (bit : Nat) :
    setSlot t slot (slotOf t slot ^^^ (1#16 <<< bit)) = xorTables t (oneBit slot bit) := by
  ext j hj
  by_cases h : slot.toNat = j <;> simp [setSlot, oneBit, slotOf, emptyStaging, h]

theorem crcOk_iff (t : Table) : crcOk t = true ↔ crc4 t = storedCrc t := beq_iff_eq

/-- Adding a table to one that passes: the sum passes exactly when the added table does. -/
theorem crcOk_xorTables {a : Table} (ha : crcOk a = true) (b : Table) :
    crcOk (xorTables a b) = true ↔ crcOk b = true := by
  rw [crcOk_iff] at ha
  rw [crcOk_iff, crcOk_iff, crc4_xorTables, storedCrc_xorTables, ha, BitVec.xor_right_inj]

/-- 95_test_vectors.md section 4.2: the list holds the CRC of each table of one bit. -/
theorem crc4_oneBit_listed : ∀ (slot : BitVec 3) (bit : Nat), bit < 16 →
    (crc4 (oneBit slot bit)).toNat = crcBySetBits (oneBit slot bit).toList := by
  decide +kernel

/-- R71(b), C6: the 20 single bits the CRC does not see are those whose listed entry is 0. -/
theorem crc4_oneBit_eq_zero_iff {slot : BitVec 3} {bit : Nat} (hbit : bit < 16) :
    crc4 (oneBit slot bit) = 0 ↔ slot = 7 ∨ (slot = 0 ∧ 12 ≤ bit) := by
  have hentry : ∀ (slot : BitVec 3) (bit : Nat), bit < 16 →
      (crcBySetBits (oneBit slot bit).toList = 0 ↔ slot = 7 ∨ (slot = 0 ∧ 12 ≤ bit)) := by decide +kernel
  rw [BitVec.toNat_eq, crc4_oneBit_listed slot bit hbit]
  exact hentry slot bit hbit

/-- Bits 12 to 15 of slot 0 change the stored nibble and not the computed one, so only slot 7 is missed (C6). -/
theorem crcOk_oneBit_iff {slot : BitVec 3} {bit : Nat} (hbit : bit < 16) :
    crcOk (oneBit slot bit) = true ↔ slot = 7 := by
  have hentry : ∀ (slot : BitVec 3) (bit : Nat), bit < 16 →
      (crcBySetBits (oneBit slot bit).toList = (storedCrc (oneBit slot bit)).toNat ↔ slot = 7) := by decide +kernel
  rw [crcOk_iff, BitVec.toNat_eq, crc4_oneBit_listed slot bit hbit]
  exact hentry slot bit hbit

/-- Settles O22: a flip is the sum with a table of one bit, so by linearity only the 128 tables of one bit matter. -/
theorem crcDetectsSingleBitFlips : Obligations.CrcDetectsSingleBitFlips := by
  intro t slot bit hbit
  rw [flip_eq_xorTables]
  constructor
  · have hsame : crc4 (xorTables t (oneBit slot bit)) = crc4 t ↔ slot = 7 ∨ (slot = 0 ∧ 12 ≤ bit) := by
      rw [crc4_xorTables, xor_left_eq_self_iff, crc4_oneBit_eq_zero_iff hbit]
    rw [Ne, hsame, not_or]
  · intro hok
    rw [crcOk_xorTables hok, crcOk_oneBit_iff hbit]

/-! ### The listed entries -/

/-- The XOR of the entries of a word's set bits. -/
def listedEntries (w : Word) (entries : List Nat) : Nat :=
  (entries.zipIdx.map fun e => if w.getLsbD e.2 then e.1 else 0).foldl (· ^^^ ·) 0

theorem crcBySetBits_toList (t : Table) :
    crcBySetBits t.toList =
      ((allSlots.zip crcBasis).map fun e => listedEntries (slotOf t e.1) e.2).foldl (· ^^^ ·) 0 := by
  rw [table_toList]
  rfl

/-- The XOR over a list of a pointwise sum is the sum of the two XORs. -/
theorem foldl_xor_map_xor {α : Type} (l : List α) (f g : α → Nat) (x y : Nat) :
    (l.map fun e => f e ^^^ g e).foldl (· ^^^ ·) (x ^^^ y) =
      (l.map f).foldl (· ^^^ ·) x ^^^ (l.map g).foldl (· ^^^ ·) y := by
  induction l generalizing x y with
  | nil => rfl
  | cons e l ih =>
    have hstep : x ^^^ y ^^^ (f e ^^^ g e) = (x ^^^ f e) ^^^ (y ^^^ g e) := by ac_rfl
    simp only [List.map_cons, List.foldl_cons, hstep, ih]

theorem listedEntries_xor (v w : Word) (entries : List Nat) :
    listedEntries (v ^^^ w) entries = listedEntries v entries ^^^ listedEntries w entries := by
  have hentry : ∀ e : Nat × Nat, (if (v ^^^ w).getLsbD e.2 then e.1 else 0) =
      (if v.getLsbD e.2 then e.1 else 0) ^^^ (if w.getLsbD e.2 then e.1 else 0) := fun e => by
    cases hv : v.getLsbD e.2 <;> cases hw : w.getLsbD e.2 <;> simp [hv, hw]
  simp only [listedEntries, hentry]
  exact foldl_xor_map_xor _ _ _ 0 0

theorem crcBySetBits_xorTables (a b : Table) :
    crcBySetBits (xorTables a b).toList = crcBySetBits a.toList ^^^ crcBySetBits b.toList := by
  have hslot : ∀ slot, slotOf (xorTables a b) slot = slotOf a slot ^^^ slotOf b slot :=
    fun slot => Vector.getElem_zipWith slot.isLt
  simp only [crcBySetBits_toList, hslot, listedEntries_xor]
  exact foldl_xor_map_xor _ _ _ 0 0

/-- From the zero word every word is reached by flips of single bits, the lowest first. -/
theorem word_flip_induction {Q : Word → Prop} (zero : Q 0#16)
    (flip : ∀ w bit, bit < 16 → Q w → Q (w ^^^ (1#16 <<< bit))) (w : Word) : Q w := by
  have below : ∀ n ≤ 16, ∀ w : Word, (∀ i, n ≤ i → w.getLsbD i = false) → Q w := by
    intro n
    induction n with
    | zero =>
      intro _ w hw
      have hzero : w = 0#16 := BitVec.eq_of_getLsbD_eq fun i _ => by simp [hw i]
      exact hzero ▸ zero
    | succ n ih =>
      intro hn w hw
      cases hbit : w.getLsbD n with
      | false =>
        refine ih (by omega) w fun i hi => ?_
        rcases hi.eq_or_lt with rfl | hlt
        · exact hbit
        · exact hw i hlt
      | true =>
        have hcleared : Q (w ^^^ (1#16 <<< n)) := by
          refine ih (by omega) _ fun i hi => ?_
          rw [BitVec.getLsbD_xor, ← BitVec.twoPow_eq, BitVec.getLsbD_twoPow]
          rcases hi.eq_or_lt with rfl | hlt
          · simp [hbit, Nat.lt_of_succ_le hn]
          · simp [hw i hlt, hlt.ne]
        have hback := flip _ n hn hcleared
        rwa [BitVec.xor_assoc, BitVec.xor_self, BitVec.xor_zero] at hback
  exact below 16 le_rfl w fun i hi => BitVec.getLsbD_of_ge w i hi

/-- From the zero table every table is reached by flips of single bits, slot by slot. -/
theorem table_flip_induction {P : Table → Prop} (zero : P emptyStaging)
    (flip : ∀ t slot bit, bit < 16 → P t → P (setSlot t slot (slotOf t slot ^^^ (1#16 <<< bit)))) (t : Table) : P t := by
  have hset : ∀ t slot w, P t → P (setSlot t slot w) := by
    intro t slot w ht
    have hflips : P (setSlot t slot (slotOf t slot ^^^ (slotOf t slot ^^^ w))) := by
      refine word_flip_induction (Q := fun v => P (setSlot t slot (slotOf t slot ^^^ v))) ?_ ?_ _
      · simpa [setSlot, slotOf] using ht
      · intro v bit hbit hv
        have := flip _ slot bit hbit hv
        simpa [setSlot, slotOf, BitVec.xor_assoc] using this
    rwa [← BitVec.xor_assoc, BitVec.xor_self, BitVec.zero_xor] at hflips
  rw [← table_of_slots t]
  exact hset _ 7 _ (hset _ 6 _ (hset _ 5 _ (hset _ 4 _ (hset _ 3 _ (hset _ 2 _ (hset _ 1 _ (hset _ 0 _ zero)))))))

/-- Settles O21: both sides are linear and are 0 for the zero table, and the list gives the CRC of each flipped bit. -/
theorem crcIsTheXorOfTheListedEntries : Obligations.CrcIsTheXorOfTheListedEntries := by
  intro t
  induction t using table_flip_induction with
  | zero => decide +kernel
  | flip t slot bit hbit ih =>
    rw [flip_eq_xorTables, crc4_xorTables, BitVec.toNat_xor, ih, crc4_oneBit_listed slot bit hbit,
      crcBySetBits_xorTables]

/-! ### CRCCHK and READPROM -/

/-- R48, R69: the nibble, plus 16 for a match. -/
theorem crcByte_toNat (crc : BitVec 4) (isMatch : Bool) :
    (crcByte crc isMatch).toNat = crc.toNat + (if isMatch then 16 else 0) := by
  revert crc isMatch
  decide

theorem exec_crcchk (t : Table) (s : State) :
    exec (.crcchk t) s = .next (respond .ok [crcByte (crc4 t) (crcOk t)] s) := rfl

/-- Settles O19: the data byte is `crcByte` of the computed nibble and the match test. -/
theorem crcchkAnswersNibbleAndMatch : Obligations.CrcchkAnswersNibbleAndMatch := by
  refine ⟨fun t => decode_of_encode_eq rfl rfl, fun t s => ⟨crcByte (crc4 t) (crcOk t), ?_, ?_⟩⟩
  · simp [exec_crcchk]
  · simp [crcByte_toNat, crcOk]

theorem exec_readprom_valid {s : State} {t : Table} (hv : s.valid = true) (hp : s.prom = some t) (slot : BitVec 3) :
    exec (.readprom slot) s = .next (respond .ok (bytes16 (slotOf t slot)) s) := by
  simp only [exec, execReadprom, readStore_some hv hp, ok_andThen, finish_ok]

theorem exec_readprom_invalid {s : State} (hv : s.valid = false) (slot : BitVec 3) :
    exec (.readprom slot) s = .fault .notValidated := by
  simp only [exec, execReadprom, readStore_invalid hv, stop_andThen, finish_stop]

/-- Settles O28: the data bytes are the two halves of the word. -/
theorem readpromReturnsTheSlot : Obligations.ReadpromReturnsTheSlot := by
  refine ⟨fun slot => decode_of_encode_eq rfl rfl, fun slot s t hv hp => ?_,
    fun slot s hv => exec_readprom_invalid hv slot⟩
  refine ⟨(slotOf t slot).extractLsb' 8 8, (slotOf t slot).extractLsb' 0 8, ?_, ?_⟩
  · simp [exec_readprom_valid hv hp, hv, bytes16]
  · have hbytes := toNat_be16 ((slotOf t slot).extractLsb' 8 8) ((slotOf t slot).extractLsb' 0 8)
    rwa [be16_of_bytes] at hbytes

/-! ### The word read -/

/-- R49: the address-select byte, as a sum of bytes. -/
theorem promCommand_eq (slot : BitVec 3) : promCommand slot = Config.promBase + 2#8 * slot.setWidth 8 := by
  have hslot := slot.isLt
  have hoffset : BitVec.ofNat 8 (Config.promStride * slot.toNat) = 2#8 * slot.setWidth 8 := by
    apply BitVec.eq_of_toNat_eq
    simp [Config.promStride]
  rw [promCommand, hoffset]

section
variable {s : State} {st : BusStatus} {bytes : List Byte} (slot : BitVec 3)

/-- A failed address write ends the word read, and no read is issued (R61). -/
theorem readWord_write_fails (h0 : s.answerAt 0 = .answered st bytes) (hst : st ≠ .ack) :
    readWord slot s = .fail (errorOf st) (s.after 1 [.write (promCommand slot) st]) := by
  have hwrite := checkedWrite_answered (b := promCommand slot) ((nextAnswer_eq s).trans h0)
  rw [readWord, hwrite, check_not_ack hst, fail_andThen]

/-- After the address write, the check of the read's status decides how the word read ends (R61). -/
theorem readWord_read (h0 : s.ackAt 0) (h1 : s.answerAt 1 = .answered st bytes) :
    readWord slot s =
      (check (readStatus 2 st bytes)
        (s.after 2 [.write (promCommand slot) .ack, .read 2 (readStatus 2 st bytes) bytes])).andThen
          fun _ s => .ok (wordOfBytes bytes) s := by
  obtain ⟨_, h0⟩ := h0
  have hwrite := checkedWrite_answered (b := promCommand slot) ((nextAnswer_eq s).trans h0)
  have hread := checkedRead_answered (n := 2) ((nextAnswer_after s 1 [.write (promCommand slot) .ack]).trans h1)
  simp [readWord, hwrite, hread, andThen_assoc]

theorem readWord_ok (h0 : s.ackAt 0) (h1 : s.answerAt 1 = .answered st bytes) (hst : readStatus 2 st bytes = .ack) :
    readWord slot s =
      .ok (wordOfBytes bytes) (s.after 2 [.write (promCommand slot) .ack, .read 2 .ack bytes]) := by
  rw [readWord_read slot h0 h1, hst, check_ack, ok_andThen]

theorem readWord_read_fails (h0 : s.ackAt 0) (h1 : s.answerAt 1 = .answered st bytes)
    (hst : readStatus 2 st bytes ≠ .ack) :
    readWord slot s = .fail (errorOf (readStatus 2 st bytes))
      (s.after 2 [.write (promCommand slot) .ack, .read 2 (readStatus 2 st bytes) bytes]) := by
  rw [readWord_read slot h0 h1, check_not_ack hst, fail_andThen]

end

/-- An acknowledged read of a wrong number of bytes counts as ERR (R53). -/
theorem readStatus_ack_of_length_ne {n : Nat} {bytes : List Byte} (h : bytes.length ≠ n) :
    readStatus n .ack bytes = .err := if_neg h

/-- Settles O23: the write fails, or the check of the read decides. -/
theorem readWordIsTwoExchanges : Obligations.ReadWordIsTwoExchanges := by
  intro slot s
  rw [← promCommand_eq slot]
  refine ⟨fun b0 b1 h0 h1 => ⟨be16 b0 b1, toNat_be16 b0 b1, ?_⟩,
    fun bytes => ⟨fun h => ?_, fun h => ?_⟩, fun bytes h0 => ⟨fun h1 => ?_, fun h1 => ?_, fun h1 hlength => ?_⟩⟩
  · rw [readWord_ok slot h0 h1 rfl, wordOfBytes_pair]
  · exact readWord_write_fails slot h (by simp)
  · exact readWord_write_fails slot h (by simp)
  · exact readWord_read_fails slot h0 h1 (by simp)
  · exact readWord_read_fails slot h0 h1 (by simp)
  · have hst := readStatus_ack_of_length_ne hlength
    have hfail := readWord_read_fails slot h0 h1 (by simp [hst])
    rwa [hst] at hfail

/-! ### LOAD -/

@[simp] theorem statusByte_crcError (valid : Bool) :
    statusByte (.error .crcError) valid = if valid then 0x07 else 0x03 := by
  cases valid <;> rfl

theorem exec_load_cached {s : State} (hv : s.valid = true) : exec .load s = .next (respond .ok [] s) := by
  simp only [exec, execLoad, ensureLoaded, hv, if_true, ok_andThen, finish_ok]

theorem exec_load_empty {s : State} (hv : s.valid = false) :
    exec .load s =
      (((fetchSlots allSlots emptyStaging s).andThen validate).andThen fun _ s => .ok [] s).finish := by
  simp only [exec, execLoad, ensureLoaded, hv, Bool.false_eq_true, if_false]

/-- After a full fetch the CRC test decides how LOAD ends (R68). -/
theorem exec_load_delivered {s : State} {t : Table} (hv : s.valid = false) (h : s.delivers t) :
    exec .load s = ((validate t (s.after 16 (fetchEvents t))).andThen fun _ s => .ok [] s).finish := by
  rw [exec_load_empty hv, fetchSlots_delivered h, ok_andThen]

/-- Settles O24: the delivered table passes the CRC test and is committed. -/
theorem loadCommitsAFetchedTable : Obligations.LoadCommitsAFetchedTable := by
  refine ⟨decode_of_encode_eq rfl rfl, fun s t hv h hcrc => ?_⟩
  simp [exec_load_delivered hv h, validate, hcrc, State.commit, State.after]

/-- Settles O25: with the cache nothing is fetched; a delivered table that fails the CRC test is not committed. -/
theorem loadKeepsTheCacheAndDropsBadTables : Obligations.LoadKeepsTheCacheAndDropsBadTables := by
  refine ⟨fun s hv => ?_, fun s t hv h hcrc => ?_⟩
  · simp [exec_load_cached hv, hv]
  · rw [exec_load_delivered hv h, validate, hcrc]
    simp [hv, State.after]

/-- Settles O27: the first clause of O25, in the state the first LOAD left. -/
theorem loadIsIdempotent : Obligations.LoadIsIdempotent :=
  fun _ t _ hvalid => loadKeepsTheCacheAndDropsBadTables.1 t hvalid

/-! ### LOAD's first failed exchange -/

/-- The events of LOAD's first `n` exchanges. -/
def loadEvents (answers : Nat → BusStatus × List Byte) (n : Nat) : List Event :=
  (List.range n).map fun k => loadEvent k (answers k).1 (answers k).2

/-- The slots from `i` on, `m` of them. -/
def slotsFrom (i m : Nat) : List (BitVec 3) := (List.range' i m).map (BitVec.ofNat 3)

theorem slotsFrom_zero : slotsFrom 0 8 = allSlots := rfl

theorem slotsFrom_succ (i m : Nat) : slotsFrom i (m + 1) = BitVec.ofNat 3 i :: slotsFrom (i + 1) m := rfl

theorem loadEvents_zero (answers : Nat → BusStatus × List Byte) : loadEvents answers 0 = [] := rfl

theorem loadEvents_succ (answers : Nat → BusStatus × List Byte) (n : Nat) :
    loadEvents answers (n + 1) = loadEvents answers n ++ [loadEvent n (answers n).1 (answers n).2] := by
  simp [loadEvents, List.range_succ]

section
variable (i : Nat) (st : BusStatus) (bytes : List Byte)

@[simp] theorem loadEvent_even : loadEvent (2 * i) st bytes = .write (promCommand (BitVec.ofNat 3 i)) st := by
  simp [loadEvent]

@[simp] theorem loadEvent_odd : loadEvent (2 * i + 1) st bytes = .read 2 (readStatus 2 st bytes) bytes := by
  simp [loadEvent]

@[simp] theorem loadStatus_even : loadStatus (2 * i) st bytes = st := by
  simp [loadStatus]

@[simp] theorem loadStatus_odd : loadStatus (2 * i + 1) st bytes = readStatus 2 st bytes := by
  simp [loadStatus]
end

/-- The exchanges before number `n` succeed, number `n` is answered, and it does not. -/
structure State.FailsFirstAt (s : State) (n : Nat) (answers : Nat → BusStatus × List Byte) : Prop where
  answered : ∀ k ≤ n, s.answerAt k = .answered (answers k).1 (answers k).2
  before : ∀ k < n, loadStatus k (answers k).1 (answers k).2 = .ack
  fails : loadStatus n (answers n).1 (answers n).2 ≠ .ack

section
variable {s : State} {n : Nat} {answers : Nat → BusStatus × List Byte} (h : s.FailsFirstAt n answers)
include h

theorem answerAt_of_failsFirst {i k : Nat} (hk : 2 * i + k ≤ n) (es : List Event) :
    (s.after (2 * i) es).answerAt k = .answered (answers (2 * i + k)).1 (answers (2 * i + k)).2 := by
  rw [answerAt_after, h.answered _ hk]

theorem ackAt_of_failsFirst {i : Nat} (hi : 2 * i < n) (es : List Event) : (s.after (2 * i) es).ackAt 0 := by
  have hst := h.before _ hi
  rw [loadStatus_even] at hst
  exact ⟨_, by rw [answerAt_of_failsFirst h hi.le, Nat.add_zero, hst]⟩

/-- Once the address write of slot `i` succeeded, its two events are the write and the read as it counts. -/
theorem loadEvents_word {i : Nat} (hi : 2 * i < n) : loadEvents answers (2 * i + 2) =
    loadEvents answers (2 * i) ++ [.write (promCommand (BitVec.ofNat 3 i)) .ack,
      .read 2 (readStatus 2 (answers (2 * i + 1)).1 (answers (2 * i + 1)).2) (answers (2 * i + 1)).2] := by
  have hst := h.before _ hi
  rw [loadStatus_even] at hst
  simp [loadEvents_succ, hst]

/-- LOAD's loop from slot `i` on: the first failed exchange is the slot's write or read, or one of a later slot. -/
theorem fetchSlots_fails (m i : Nat) (hfrom : 2 * i ≤ n) (hto : n < 2 * (i + m)) (staging : Table) :
    fetchSlots (slotsFrom i m) staging (s.after (2 * i) (loadEvents answers (2 * i))) =
      .fail (errorOf (loadStatus n (answers n).1 (answers n).2)) (s.after (n + 1) (loadEvents answers (n + 1))) := by
  induction m generalizing i staging with
  | zero => omega
  | succ m ih =>
    rw [slotsFrom_succ, fetchSlots]
    have hcases : n = 2 * i ∨ n = 2 * i + 1 ∨ 2 * (i + 1) ≤ n := by omega
    rcases hcases with rfl | rfl | hlater
    · have hwrite := answerAt_of_failsFirst h (k := 0) le_rfl
      have hst := h.fails
      rw [loadStatus_even] at hst ⊢
      rw [readWord_write_fails _ (hwrite _) hst, fail_andThen, after_after, loadEvents_succ, loadEvent_even, Nat.add_zero]
    · have hack := ackAt_of_failsFirst h (i := i) (by omega)
      have hread := answerAt_of_failsFirst h (k := 1) le_rfl
      have hst := h.fails
      rw [loadStatus_odd] at hst ⊢
      rw [readWord_read_fails _ (hack _) (hread _) hst, fail_andThen, after_after, loadEvents_word h (by omega)]
    · have hack := ackAt_of_failsFirst h (i := i) (by omega)
      have hread := answerAt_of_failsFirst h (i := i) (k := 1) (by omega)
      have hst := h.before (2 * i + 1) (by omega)
      have hevents := loadEvents_word h (i := i) (by omega)
      rw [loadStatus_odd] at hst
      rw [hst] at hevents
      rw [readWord_ok _ (hack _) (hread _) hst, ok_andThen, after_after, ← hevents]
      exact ih (i + 1) hlater (by omega) _

end

/-- R46, R56: the status byte of a failed exchange while `VALID` is 0. -/
theorem statusByte_errorOf (st : BusStatus) :
    statusByte (.error (errorOf st)) false = if st = .nack then 0x01 else 0x02 := by
  cases st <;> rfl

/-- Settles O26: LOAD's loop over all the slots ends at the first failed exchange, and the CRC test is not reached. -/
theorem loadEndsAtTheFirstFailedExchange : Obligations.LoadEndsAtTheFirstFailedExchange := by
  intro s n answers hv hn answered before fails
  have h : s.FailsFirstAt n answers := ⟨answered, before, fails⟩
  have hfetch := fetchSlots_fails h 8 0 (by omega) (by omega) emptyStaging
  rw [slotsFrom_zero, Nat.mul_zero, loadEvents_zero, after_zero] at hfetch
  rw [exec_load_empty hv, hfetch]
  simp [hv, statusByte_errorOf, State.after, loadEvents]

end Sys2Proof.Machine

namespace Sys2Proof.Machine

/-! ### Interval arithmetic -/

theorem asr_of_between {a lo hi : Int} {k : Nat} (hlo : lo * 2 ^ k ≤ a) (hhi : a < (hi + 1) * 2 ^ k) :
    lo ≤ asr a k ∧ asr a k ≤ hi := by
  have hp : (0 : Int) < 2 ^ k := by positivity
  exact ⟨(Int.le_ediv_iff_mul_le hp).mpr hlo, Int.lt_add_one_iff.mp ((Int.ediv_lt_iff_lt_mul hp).mpr hhi)⟩

/-- A coefficient or count times a value of an interval around 0 is extreme where the coefficient is. -/
theorem toNat_mul_between {w : Nat} (c : BitVec w) {x lo hi : Int} (h : lo ≤ x ∧ x ≤ hi) (hlo : lo ≤ 0) (hhi : 0 ≤ hi) :
    (2 ^ w - 1) * lo ≤ c.toNat * x ∧ c.toNat * x ≤ (2 ^ w - 1) * hi := by
  have hc : (c.toNat : Int) ≤ 2 ^ w - 1 := by
    have hlt : (c.toNat : Int) < 2 ^ w := by exact_mod_cast c.isLt
    omega
  obtain ⟨h1, h2⟩ := h
  constructor <;> nlinarith [c.toNat.cast_nonneg (α := Int)]

theorem sq_between {x b : Int} (hlo : -b ≤ x) (hhi : x ≤ b) : 0 ≤ x ^ 2 ∧ x ^ 2 ≤ b ^ 2 :=
  ⟨sq_nonneg x, sq_le_sq' hlo hhi⟩

/-! ### The bounds of R84 -/

/-- The form both second-order corrections share, with the factors `a` and `b` (R76 to R78). -/
def lowCorrection (a b temp : Int) : Int :=
  if temp < 2000 then a * (temp - 2000) ^ 2 / 16 + (if temp < -1500 then b * (temp + 1500) ^ 2 else 0) else 0

theorem pipeOff2_eq (temp : Int) : pipeOff2 temp = lowCorrection 61 17 temp := rfl

theorem pipeSens2_eq (temp : Int) : pipeSens2 temp = lowCorrection 29 9 temp := rfl

theorem pipeDT_between (d2 : RawCount) (c5 : Word) : -16776960 ≤ pipeDT d2 c5 ∧ pipeDT d2 c5 ≤ 16777215 := by
  have hd2 := d2.isLt
  have hc5 := c5.isLt
  unfold pipeDT
  omega

section
variable {dT : Int} (hdT : -16776960 ≤ dT ∧ dT ≤ 16777215)
include hdT

theorem coefficient_mul_dT_between (c : Word) :
    65535 * -16776960 ≤ c.toNat * dT ∧ c.toNat * dT ≤ 65535 * 16777215 :=
  toNat_mul_between c hdT (by decide) (by decide)

theorem dT_sq_between : 0 ≤ dT ^ 2 ∧ dT ^ 2 ≤ 16777215 ^ 2 :=
  sq_between (by omega) hdT.2

theorem pipeTemp_between (c6 : Word) : -129069 ≤ pipeTemp dT c6 ∧ pipeTemp dT c6 ≤ 133069 := by
  have hproduct := coefficient_mul_dT_between hdT c6
  have hshift : -131069 ≤ asr (c6.toNat * dT) 23 ∧ asr (c6.toNat * dT) 23 ≤ 131069 :=
    asr_of_between (by omega) (by omega)
  rw [pipeTemp, mul_comm dT]
  omega

theorem pipeT2_between (temp : Int) : 0 ≤ pipeT2 dT temp ∧ pipeT2 dT temp ≤ 98303 := by
  have hsq := dT_sq_between hdT
  unfold pipeT2
  split
  · exact asr_of_between (by nlinarith) (by nlinarith)
  · exact asr_of_between (by nlinarith) (by nlinarith)
end

section
variable {temp : Int} (htemp : -129069 ≤ temp)
include htemp

theorem lowCorrection_between {a b : Int} (ha : 0 ≤ a) (hb : 0 ≤ b) :
    0 ≤ lowCorrection a b temp ∧ lowCorrection a b temp ≤ a * 131069 ^ 2 / 16 + b * 127569 ^ 2 := by
  have hlow : temp < 2000 → 0 ≤ a * (temp - 2000) ^ 2 / 16 ∧ a * (temp - 2000) ^ 2 / 16 ≤ a * 131069 ^ 2 / 16 := by
    intro h
    have hsq := sq_between (x := temp - 2000) (b := 131069) (by omega) (by omega)
    exact ⟨by positivity, Int.ediv_le_ediv (by decide) (mul_le_mul_of_nonneg_left hsq.2 ha)⟩
  have hvery : temp < -1500 → 0 ≤ b * (temp + 1500) ^ 2 ∧ b * (temp + 1500) ^ 2 ≤ b * 127569 ^ 2 := by
    intro h
    have hsq := sq_between (x := temp + 1500) (b := 127569) (by omega) (by omega)
    exact ⟨by positivity, mul_le_mul_of_nonneg_left hsq.2 hb⟩
  have ha' : 0 ≤ a * 131069 ^ 2 / 16 := by positivity
  have hb' : 0 ≤ b * 127569 ^ 2 := by positivity
  unfold lowCorrection
  split_ifs <;> omega

theorem pipeOff2_between : 0 ≤ pipeOff2 temp ∧ pipeOff2 temp ≤ 342150698963 :=
  lowCorrection_between htemp (a := 61) (b := 17) (by decide) (by decide)

theorem pipeSens2_between : 0 ≤ pipeSens2 temp ∧ pipeSens2 temp ≤ 177601735353 :=
  lowCorrection_between htemp (a := 29) (b := 9) (by decide) (by decide)
end

section
variable {dT : Int} (hdT : -16776960 ≤ dT ∧ dT ≤ 16777215)
include hdT

theorem pipeOff_between (c2 c4 : Word) {off2 : Int} (hoff2 : 0 ≤ off2 ∧ off2 ≤ 342150698963) :
    -359330043863 ≤ pipeOff c2 c4 dT off2 ∧ pipeOff c2 c4 dT off2 ≤ 25769409536 := by
  have hc2 := c2.isLt
  have hproduct := coefficient_mul_dT_between hdT c4
  have hshift := asr_isFloorShift (c4.toNat * dT) 6
  unfold isFloorShift at hshift
  unfold pipeOff
  omega

theorem pipeSens_between (c1 c3 : Word) {sens2 : Int} (hsens2 : 0 ≤ sens2 ∧ sens2 ≤ 177601735353) :
    -186191407803 ≤ pipeSens c1 c3 dT sens2 ∧ pipeSens c1 c3 dT sens2 ≤ 12884704768 := by
  have hc1 := c1.isLt
  have hproduct := coefficient_mul_dT_between hdT c3
  have hshift := asr_isFloorShift (c3.toNat * dT) 7
  unfold isFloorShift at hshift
  unfold pipeSens
  omega
end

theorem count_mul_sens_between (d1 : RawCount) {sens : Int} (hsens : -186191407803 ≤ sens ∧ sens ≤ 12884704768) :
    -3123773279863608645 ≤ d1.toNat * sens ∧ d1.toNat * sens ≤ 216169462104261120 :=
  toNat_mul_between d1 hsens (by decide) (by decide)

theorem pipeP_between (d1 : RawCount) {off sens : Int} (hoff : -359330043863 ≤ off ∧ off ≤ 25769409536)
    (hsens : -186191407803 ≤ sens ∧ sens ≤ 12884704768) :
    -46243304 ≤ pipeP d1 off sens ∧ pipeP d1 off sens ≤ 14111562 := by
  have hproduct := count_mul_sens_between d1 hsens
  have hshift := asr_isFloorShift (d1.toNat * sens) 21
  unfold isFloorShift at hshift
  exact asr_of_between (by omega) (by omega)

/-- R84's table, but for the intermediate products. -/
structure PipeBounds (v : PipeValues) : Prop where
  dT : -16776960 ≤ v.dT ∧ v.dT ≤ 16777215
  temp : -129069 ≤ v.temp ∧ v.temp ≤ 133069
  t2 : 0 ≤ v.t2 ∧ v.t2 ≤ 98303
  off2 : 0 ≤ v.off2 ∧ v.off2 ≤ 342150698963
  sens2 : 0 ≤ v.sens2 ∧ v.sens2 ≤ 177601735353
  off : -359330043863 ≤ v.off ∧ v.off ≤ 25769409536
  sens : -186191407803 ≤ v.sens ∧ v.sens ≤ 12884704768
  p : -46243304 ≤ v.p ∧ v.p ≤ 14111562
  tout : -227372 ≤ v.tout ∧ v.tout ≤ 133069

/-- Each value's bounds follow from those of the values before it. -/
theorem PipeEquations.bounds {d2 d1 : RawCount} {t : Table} {v : PipeValues} (h : PipeEquations d2 d1 t v) :
    PipeBounds v := by
  have hdT := h.dT ▸ pipeDT_between d2 t[5]
  have htemp := h.temp ▸ pipeTemp_between hdT t[6]
  have ht2 := h.t2 ▸ pipeT2_between hdT v.temp
  have hoff2 := h.off2 ▸ pipeOff2_between htemp.1
  have hsens2 := h.sens2 ▸ pipeSens2_between htemp.1
  have hoff := h.off ▸ pipeOff_between hdT t[2] t[4] hoff2
  have hsens := h.sens ▸ pipeSens_between hdT t[1] t[3] hsens2
  have hp := h.p ▸ pipeP_between d1 hoff hsens
  have htout : -227372 ≤ v.tout ∧ v.tout ≤ 133069 := by
    rw [h.tout]
    omega
  exact ⟨hdT, htemp, ht2, hoff2, hsens2, hoff, hsens, hp, htout⟩

/-- Settles O30, value by value in the order of the pipeline. -/
theorem pipelineValuesStayInBounds : Obligations.PipelineValuesStayInBounds := by
  intro d2 d1 t v hv
  obtain ⟨hdT, htemp, ht2, hoff2, hsens2, hoff, hsens, hp, htout⟩ := (hv ▸ pipeline_equations d2 d1 t).bounds
  have hproduct : |v.dT * t[6].toNat| < 2 ^ 40 := by
    have hbetween := coefficient_mul_dT_between hdT t[6]
    rw [mul_comm, abs_lt]
    omega
  have hsq := dT_sq_between hdT
  exact ⟨hdT, hproduct, htemp, by omega, ht2, hoff2, hsens2, hoff, hsens, count_mul_sens_between d1 hsens, hp, htout⟩

/-! ### The values as floors (R74 to R83) -/

theorem lowCorrection_high {a b temp : Int} (h : 2000 ≤ temp) : lowCorrection a b temp = 0 :=
  if_neg (by omega)

theorem lowCorrection_low {a b temp : Int} (h : -1500 ≤ temp) (hlow : temp < 2000) :
    isFloorShift (a * (temp - 2000) ^ 2) 4 (lowCorrection a b temp) := by
  rw [isFloorShift_iff, lowCorrection, if_pos hlow, if_neg (by omega), add_zero, asr]
  rfl

theorem lowCorrection_very_low {a b temp : Int} (h : temp < -1500) :
    isFloorShift (a * (temp - 2000) ^ 2) 4 (lowCorrection a b temp - b * (temp + 1500) ^ 2) := by
  rw [isFloorShift_iff, lowCorrection, if_pos (by omega), if_pos h, add_sub_cancel_right, asr]
  rfl

theorem pipeT2_low {dT temp : Int} (h : temp < 2000) : isFloorShift (3 * dT ^ 2) 33 (pipeT2 dT temp) := by
  rw [isFloorShift_iff, pipeT2, if_pos h, mul_assoc, sq]

theorem pipeT2_high {dT temp : Int} (h : 2000 ≤ temp) : isFloorShift (5 * dT ^ 2) 38 (pipeT2 dT temp) := by
  rw [isFloorShift_iff, pipeT2, if_neg (by omega), mul_assoc, sq]

/-- Settles O29, rule by rule: each shift of the model is the floor, and the branches are the table's cases. -/
theorem pipelineValuesFollowTheRules : Obligations.PipelineValuesFollowTheRules := by
  intro d2 d1 t v hv
  have h := hv ▸ pipeline_equations d2 d1 t
  have hbounds := h.bounds
  refine ⟨h.dT, hbounds.dT, ?temp, hbounds.temp, ?t2Low, ?low, ?veryLow, ?high, ?off, ?sens, ?p, h.tout, ?outputs⟩
  case temp =>
    rw [isFloorShift_iff, h.temp, pipeTemp, add_sub_cancel_left]
  case t2Low => exact fun hlow => h.t2 ▸ pipeT2_low hlow
  case low =>
    intro hge hlow
    rw [h.off2, h.sens2, pipeOff2_eq, pipeSens2_eq]
    exact ⟨lowCorrection_low hge hlow, lowCorrection_low hge hlow⟩
  case veryLow =>
    intro hvery
    rw [h.off2, h.sens2, pipeOff2_eq, pipeSens2_eq]
    exact ⟨lowCorrection_very_low hvery, lowCorrection_very_low hvery⟩
  case high =>
    intro hhigh
    rw [h.off2, h.sens2, h.t2, pipeOff2_eq, pipeSens2_eq]
    exact ⟨pipeT2_high hhigh, lowCorrection_high hhigh, lowCorrection_high hhigh⟩
  case off =>
    rw [isFloorShift_iff, h.off, pipeOff]
    ring
  case sens =>
    rw [isFloorShift_iff, h.sens, pipeSens]
    ring
  case p => exact ⟨_, asr_isFloorShift _ 21, h.p ▸ asr_isFloorShift _ 15⟩
  case outputs => rw [hv]; rfl

/-! ### Which branch (R85) -/

theorem asr_nonneg_iff (a : Int) (k : Nat) : 0 ≤ asr a k ↔ 0 ≤ a :=
  Int.ediv_nonneg_iff_of_pos (by positivity)

theorem asr_eq_zero_iff (a : Int) (k : Nat) : asr a k = 0 ↔ 0 ≤ a ∧ a < 2 ^ k := by
  rw [eq_comm, ← isFloorShift_iff]
  simp [isFloorShift]

theorem pipeTemp_lt_iff (dT : Int) (c6 : Word) : pipeTemp dT c6 < 2000 ↔ dT < 0 ∧ 0 < c6.toNat := by
  have hsign := asr_nonneg_iff (dT * c6.toNat) 23
  have hproduct : dT * c6.toNat < 0 ↔ dT < 0 ∧ 0 < c6.toNat := by
    have := c6.toNat.cast_nonneg (α := Int)
    rw [mul_neg_iff]
    omega
  rw [← hproduct, pipeTemp]
  omega

theorem pipeTemp_eq_iff (dT : Int) (c6 : Word) :
    pipeTemp dT c6 = 2000 ↔ 0 ≤ dT * c6.toNat ∧ dT * c6.toNat < 2 ^ 23 := by
  rw [← asr_eq_zero_iff, pipeTemp, add_eq_left]

/-- Settles O32: the branch is the sign of the product `dT * C6`, and `T2` is never negative. -/
theorem branchAndRoundingLaws : Obligations.BranchAndRoundingLaws := by
  intro d2 d1 t v hv
  have h := hv ▸ pipeline_equations d2 d1 t
  have hlt := h.temp ▸ pipeTemp_lt_iff v.dT t[6]
  have heq := h.temp ▸ pipeTemp_eq_iff v.dT t[6]
  have ht2 := h.bounds.t2.1
  refine ⟨hlt, heq, fun hc6 => ?_, ⟨ht2, by rw [h.tout]; omega⟩, fun hsens => ?_⟩
  · have htemp : v.temp = 2000 := heq.mpr (by simp [hc6])
    exact ⟨htemp, h.t2 ▸ pipeT2_high htemp.ge⟩
  · rw [isFloorShift_iff, h.p, hsens]
    simp [pipeP, asr]

end Sys2Proof.Machine

namespace Sys2Proof.Machine

/-! ### Two's complement evaluation -/

/-- The integer is a value of signed 64-bit two's complement. -/
abbrev Fits64 (a : Int) : Prop := -2 ^ 63 ≤ a ∧ a < 2 ^ 63

/-- The word is the integer's two's complement, modulo `2^64`. -/
def Evaluates (x : BitVec 64) (a : Int) : Prop := x = BitVec.ofInt 64 a

section
variable {x y : BitVec 64} {a b : Int}

theorem Evaluates.toInt_eq (hx : Evaluates x a) (ha : Fits64 a) : x.toInt = a := by
  rw [hx, BitVec.toInt_ofInt_eq_self (by decide) ha.1 ha.2]

/-! Sums, products and left shifts wrap alike on both sides, so they ask for no bound. -/

theorem Evaluates.const (n : Nat) : Evaluates (BitVec.ofNat 64 n) n := BitVec.ofInt_natCast 64 n

theorem Evaluates.zeroExtend {w : Nat} (c : BitVec w) : Evaluates (c.setWidth 64) c.toNat := by
  rw [Evaluates, BitVec.ofInt_natCast, BitVec.ofNat_toNat]

theorem Evaluates.add (hx : Evaluates x a) (hy : Evaluates y b) : Evaluates (x + y) (a + b) := by
  rw [Evaluates, BitVec.ofInt_add, hx, hy]

theorem Evaluates.neg (hx : Evaluates x a) : Evaluates (-x) (-a) := by
  rw [Evaluates, BitVec.ofInt_neg, hx]

theorem Evaluates.sub (hx : Evaluates x a) (hy : Evaluates y b) : Evaluates (x - y) (a - b) := by
  rw [BitVec.sub_eq_add_neg, sub_eq_add_neg]
  exact hx.add hy.neg

theorem Evaluates.mul (hx : Evaluates x a) (hy : Evaluates y b) : Evaluates (x * y) (a * b) := by
  rw [Evaluates, BitVec.ofInt_mul, hx, hy]

theorem Evaluates.shiftLeft (hx : Evaluates x a) (k : Nat) : Evaluates (x <<< k) (a * 2 ^ k) := by
  rw [BitVec.shiftLeft_eq_mul_twoPow]
  have hpow : Evaluates (BitVec.twoPow 64 k) ((2 ^ k : Nat) : Int) := by
    rw [Evaluates, BitVec.ofInt_natCast]
    exact BitVec.eq_of_toNat_eq (by simp)
  exact_mod_cast hx.mul hpow

/-! Right shifts and comparisons depend on the sign, so they ask that the integers fit. -/

/-- The arithmetic shift is the floor shift (R7). -/
theorem Evaluates.sshiftRight (hx : Evaluates x a) (ha : Fits64 a) (k : Nat) :
    Evaluates (x.sshiftRight k) (asr a k) := by
  have hshift : (x.sshiftRight k).toInt = asr a k := by
    rw [BitVec.toInt_sshiftRight, hx.toInt_eq ha, Int.shiftRight_eq_div_pow]
    rfl
  rw [Evaluates, ← hshift, BitVec.ofInt_toInt]

theorem Evaluates.ite_slt {u v : BitVec 64} {c d : Int} (hx : Evaluates x a) (ha : Fits64 a) (hy : Evaluates y b)
    (hb : Fits64 b) (hu : Evaluates u c) (hv : Evaluates v d) :
    Evaluates (if x.slt y then u else v) (if a < b then c else d) := by
  simp only [BitVec.slt_iff_toInt_lt, hx.toInt_eq ha, hy.toInt_eq hb]
  split
  · exact hu
  · exact hv

end

/-! ### The stages of the 64-bit evaluation (R84) -/

theorem dT_evaluates (d2 : RawCount) (c5 : Word) :
    Evaluates (d2.setWidth 64 - (c5.setWidth 64 <<< 8)) (pipeDT d2 c5) :=
  (Evaluates.zeroExtend d2).sub ((Evaluates.zeroExtend c5).shiftLeft 8)

section
variable {x y z : BitVec 64} {dT : Int} (hx : Evaluates x dT) (hdT : -16776960 ≤ dT ∧ dT ≤ 16777215)
include hx hdT

theorem coefficient_shift_evaluates (c : Word) (k : Nat) :
    Evaluates ((c.setWidth 64 * x).sshiftRight k) (asr (c.toNat * dT) k) := by
  have hproduct := coefficient_mul_dT_between hdT c
  exact ((Evaluates.zeroExtend c).mul hx).sshiftRight (by omega) k

theorem temp_evaluates (c6 : Word) :
    Evaluates (2000#64 + (x * c6.setWidth 64).sshiftRight 23) (pipeTemp dT c6) := by
  rw [BitVec.mul_comm x, pipeTemp, mul_comm dT]
  exact (Evaluates.const 2000).add (coefficient_shift_evaluates hx hdT c6 23)

/-- One branch of the temperature correction. -/
theorem dT_sq_shift_evaluates {n : Nat} (hn : n ≤ 5) (k : Nat) :
    Evaluates ((BitVec.ofNat 64 n * x * x).sshiftRight k) (asr (n * dT * dT) k) := by
  have hsq := dT_sq_between hdT
  have hfits : Fits64 (n * dT * dT) := by
    rw [mul_assoc, ← sq]
    constructor <;> nlinarith
  exact (((Evaluates.const n).mul hx).mul hx).sshiftRight hfits k

theorem t2_evaluates {temp : Int} (hy : Evaluates y temp) (htemp : -129069 ≤ temp ∧ temp ≤ 133069) :
    Evaluates (if y.slt 2000#64 then (3#64 * x * x).sshiftRight 33 else (5#64 * x * x).sshiftRight 38)
      (pipeT2 dT temp) :=
  hy.ite_slt (by omega) (Evaluates.const 2000) (by decide) (dT_sq_shift_evaluates hx hdT (by decide) 33)
    (dT_sq_shift_evaluates hx hdT (by decide) 38)

theorem off_evaluates (c2 c4 : Word) {off2 : Int} (hz : Evaluates z off2) :
    Evaluates ((c2.setWidth 64 <<< 17) + (c4.setWidth 64 * x).sshiftRight 6 - z) (pipeOff c2 c4 dT off2) :=
  (((Evaluates.zeroExtend c2).shiftLeft 17).add (coefficient_shift_evaluates hx hdT c4 6)).sub hz

theorem sens_evaluates (c1 c3 : Word) {sens2 : Int} (hz : Evaluates z sens2) :
    Evaluates ((c1.setWidth 64 <<< 16) + (c3.setWidth 64 * x).sshiftRight 7 - z) (pipeSens c1 c3 dT sens2) :=
  (((Evaluates.zeroExtend c1).shiftLeft 16).add (coefficient_shift_evaluates hx hdT c3 7)).sub hz

end

theorem lowCorrection_evaluates {x : BitVec 64} {temp : Int} (hx : Evaluates x temp)
    (htemp : -129069 ≤ temp ∧ temp ≤ 133069) {m : Nat} (hm : m ≤ 61) (n : Nat) :
    Evaluates
      (if x.slt 2000#64 then
        (BitVec.ofNat 64 m * ((x - 2000#64) * (x - 2000#64))).sshiftRight 4 +
          (if x.slt (-1500#64) then BitVec.ofNat 64 n * ((x + 1500#64) * (x + 1500#64)) else 0#64)
      else 0#64)
      (lowCorrection m n temp) := by
  have hsq := sq_between (x := temp - 2000) (b := 133069) (by omega) (by omega)
  have hfits : Fits64 (m * (temp - 2000) ^ 2) := by
    constructor <;> nlinarith
  have hdiff := hx.sub (Evaluates.const 2000)
  have hsum := hx.add (Evaluates.const 1500)
  have hmain := ((Evaluates.const m).mul (sq (temp - 2000) ▸ hdiff.mul hdiff)).sshiftRight hfits 4
  have hvery := hx.ite_slt (by omega) (Evaluates.const 1500).neg (by decide)
    ((Evaluates.const n).mul (sq (temp + 1500) ▸ hsum.mul hsum)) (Evaluates.const 0)
  exact hx.ite_slt (by omega) (Evaluates.const 2000) (by decide) (hmain.add hvery) (Evaluates.const 0)

theorem p_evaluates {x y : BitVec 64} {off sens : Int} (d1 : RawCount) (hx : Evaluates x off) (hy : Evaluates y sens)
    (hoff : -359330043863 ≤ off ∧ off ≤ 25769409536) (hsens : -186191407803 ≤ sens ∧ sens ≤ 12884704768) :
    Evaluates (((d1.setWidth 64 * y).sshiftRight 21 - x).sshiftRight 15) (pipeP d1 off sens) := by
  have hproduct := count_mul_sens_between d1 hsens
  have hshift := ((Evaluates.zeroExtend d1).mul hy).sshiftRight (by omega) 21
  have hquotient := asr_isFloorShift (d1.toNat * sens) 21
  unfold isFloorShift at hquotient
  exact (hshift.sub hx).sshiftRight (by omega) 15

theorem compensate64_evaluates (d2 d1 : RawCount) (t : Table) :
    Evaluates (compensate64 d2 d1 t).1 (compensate d2 d1 t).1 ∧
    Evaluates (compensate64 d2 d1 t).2 (compensate d2 d1 t).2 := by
  have h := (pipeline_equations d2 d1 t).bounds
  have hdT := dT_evaluates d2 t[5]
  have htemp := temp_evaluates hdT h.dT t[6]
  have ht2 := t2_evaluates hdT h.dT htemp h.temp
  have hoff2 := lowCorrection_evaluates htemp h.temp (m := 61) (by decide) 17
  have hsens2 := lowCorrection_evaluates htemp h.temp (m := 29) (by decide) 9
  have hoff := off_evaluates hdT h.dT t[2] t[4] hoff2
  have hsens := sens_evaluates hdT h.dT t[1] t[3] hsens2
  exact ⟨htemp.sub ht2, p_evaluates d1 hoff hsens h.off h.sens⟩

/-- R84: the outputs are values of s32. -/
theorem toInt_ofInt_compensate (d2 d1 : RawCount) (t : Table) :
    (BitVec.ofInt 32 (compensate d2 d1 t).1).toInt = (compensate d2 d1 t).1 ∧
    (BitVec.ofInt 32 (compensate d2 d1 t).2).toInt = (compensate d2 d1 t).2 := by
  have h := (pipeline_equations d2 d1 t).bounds
  have htout := h.tout
  have hp := h.p
  rw [compensate_fst, compensate_snd]
  constructor <;> exact BitVec.toInt_ofInt_eq_self (by decide) (by omega) (by omega)

/-- Settles O31, stage by stage: sums and products agree modulo `2^64`, and where a shift or a comparison needs the sign, the value
fits by R84's bounds. -/
theorem sixtyFourBitEvaluationIsExact : Obligations.SixtyFourBitEvaluationIsExact := by
  intro d2 d1 t
  obtain ⟨htout, hp⟩ := compensate64_evaluates d2 d1 t
  obtain ⟨htout32, hp32⟩ := toInt_ofInt_compensate d2 d1 t
  have h := (pipeline_equations d2 d1 t).bounds
  have htoutFits : Fits64 (compensate d2 d1 t).1 := by
    have := h.tout
    rw [compensate_fst]
    omega
  have hpFits : Fits64 (compensate d2 d1 t).2 := by
    have := h.p
    rw [compensate_snd]
    omega
  rw [htout.toInt_eq htoutFits, hp.toInt_eq hpFits, htout32, hp32]
  exact ⟨rfl, rfl⟩

/-! ### What the pipeline reads -/

theorem setSlot_getElem_of_ne (t : Table) {slot : BitVec 3} (w : Word) {i : Nat} (hi : i < 8) (h : slot.toNat ≠ i) :
    (setSlot t slot w)[i] = t[i] :=
  Vector.getElem_set_ne _ _ h

/-- Settles O33: the pipeline's equations name slots 1 to 6 only, which the two writes leave alone. -/
theorem compensateReadsSlotsOneToSix : Obligations.CompensateReadsSlotsOneToSix := by
  intro d2 d1 t crcw scr
  simp [compensate, pipeline, setSlot_getElem_of_ne]

/-! ### COMP, and READTP with cached coefficients -/

theorem exec_comp_valid {s : State} {t : Table} (hv : s.valid = true) (hp : s.prom = some t) (d2 d1 : RawCount) :
    exec (.comp d2 d1) s = .next (respond .ok (outputBytes (compensate d2 d1 t)) s) := by
  simp only [exec, execComp, readStore_some hv hp, ok_andThen, finish_ok]

theorem exec_comp_invalid {s : State} (hv : s.valid = false) (d2 d1 : RawCount) :
    exec (.comp d2 d1) s = .fault .notValidated := by
  simp only [exec, execComp, readStore_invalid hv, stop_andThen, finish_stop]

/-- COMP answers a next state only while a table is cached (R86, R96). -/
theorem exec_comp_next {s u : State} {d2 d1 : RawCount} (h : exec (.comp d2 d1) s = .next u) :
    ∃ t, s.prom = some t ∧ u = respond .ok (outputBytes (compensate d2 d1 t)) s := by
  obtain ⟨t, hv, hp, -⟩ | ⟨-, hstop⟩ := readStore_cases s
  · rw [exec_comp_valid hv hp] at h
    cases h
    exact ⟨t, hp, rfl⟩
  · simp [exec, execComp, hstop] at h

/-- The bytes of an output, joined again (R29). -/
theorem exists_bytes32 (w : Out32) :
    ∃ b3 b2 b1 b0 : Byte, bytes32 w = [b3, b2, b1, b0] ∧ (b3 ++ b2 ++ b1 ++ b0 : BitVec 32) = w := by
  refine ⟨_, _, _, _, rfl, BitVec.eq_of_getLsbD_eq fun i hi => ?_⟩
  simp only [BitVec.getLsbD_append, BitVec.getLsbD_extractLsb']
  grind

/-- Settles O34: the data bytes are those of the two outputs, which fit s32. -/
theorem compAnswersTheCompensatedPair : Obligations.CompAnswersTheCompensatedPair := by
  refine ⟨fun d2 d1 => decode_of_encode_eq rfl rfl, fun d2 d1 s t hv hprom => ?_,
    fun d2 d1 s hv => exec_comp_invalid hv d2 d1⟩
  obtain ⟨htout, hpressure⟩ := toInt_ofInt_compensate d2 d1 t
  obtain ⟨x3, x2, x1, x0, hx, hxw⟩ := exists_bytes32 (BitVec.ofInt 32 (compensate d2 d1 t).1)
  obtain ⟨p3, p2, p1, p0, hp, hpw⟩ := exists_bytes32 (BitVec.ofInt 32 (compensate d2 d1 t).2)
  refine ⟨x3, x2, x1, x0, p3, p2, p1, p0, ?_, ?_⟩
  · rw [exec_comp_valid hv hprom, respond_eq, statusByte_ok, hv, outputBytes, hx, hp]
    rfl
  · rw [hxw, hpw, htout, hpressure]

/-- READTP's path with the cache, both counts delivered and not 0 (R91). -/
theorem exec_readtp_measured {s : State} {t : Table} {d2 d1 : RawCount} (hv : s.valid = true) (hp : s.prom = some t)
    (h2 : s.deliversCount 0 d2) (h1 : s.deliversCount 3 d1) (hd2 : d2 ≠ 0#24) (hd1 : d1 ≠ 0#24) :
    exec .readtp s =
      .next (respond .ok (outputBytes (compensate d2 d1 t)) (s.after 6 (measureEvents s.osr d2 d1))) := by
  have hconvT := convert_delivered (es := []) Config.convBaseT h2
  have hconvP := convert_delivered (es := convEvents s.osr Config.convBaseT d2) Config.convBaseP h1
  have hstore := readStore_some (s := s.after 6 (measureEvents s.osr d2 d1)) hv hp
  simp only [after_zero, List.nil_append, Nat.zero_add] at hconvT
  rw [measureEvents] at hstore ⊢
  simp only [exec, execReadtp, ensureLoaded, hv, if_true, ok_andThen, hconvT, hconvP, zeroGuard, hd2, hd1, or_self,
    if_false, hstore, finish_ok]

/-- Settles O42: both responses are the status OK and the compensated pair of the cached table. -/
theorem readtpAgreesWithComp : Obligations.ReadtpAgreesWithComp := by
  intro s t u d2 d1 hv h2 h1 hd2 hd1 hreadtp hcomp
  obtain ⟨table, hp, rfl⟩ := exec_comp_next hcomp
  rw [exec_readtp_measured hv hp h2 h1 hd2 hd1] at hreadtp
  cases hreadtp
  rfl

end Sys2Proof.Machine

namespace Sys2Proof.Machine

/-! ### SETRES -/

/-- R39, R40: SETRES's header written as `0x40 OR` the code. -/
theorem header_setres (code : BitVec 3) : 0x40#8 ||| code.setWidth 8 = header 0x4#4 code := rfl

/-- The decoder reads a header of opcode 4 as SETRES's operand (R39, R40, R45). -/
theorem decode_header_setres (code : BitVec 3) (rest : List Byte) :
    decode (header 0x4#4 code :: rest) = decodeResolution code rest := by
  obtain ⟨hop, hz, hk⟩ := header_fields 0x4#4 code
  rw [decode, decodeRequest, hop, hk]
  simp only [requireZeroZ, hz]
  rfl

theorem exec_setres {code : BitVec 3} (hcode : code.toNat ≤ 5) (s : State) :
    exec (.setres code) s = .next (respond .ok [] (s.setOsr code)) := by
  simp only [exec, execSetres, hcode, if_true, finish_ok]

theorem exec_setres_reserved {code : BitVec 3} (hcode : ¬ code.toNat ≤ 5) (s : State) :
    exec (.setres code) s = .refused .reservedResolution := by
  simp only [exec, execSetres, hcode, if_false]

/-- Settles O35: decoder and meaning make the same test of the code. -/
theorem setresStoresTheCode : Obligations.SetresStoresTheCode := by
  refine ⟨fun code hcode => ?_, fun code s hcode => ?_, fun code s hcode => ⟨?_, ?_⟩⟩
  · rw [header_setres]
    exact decode_of_encode_eq (wellFormed_setres.mpr hcode) rfl
  · rw [exec_setres hcode, respond_eq, statusByte_ok]
    rfl
  · rw [header_setres, decode_header_setres, decodeResolution, if_neg (by omega)]
  · exact exec_setres_reserved (by omega) s

/-! ### One conversion -/

/-- R56: only NACK is reported as NoAcknowledge. -/
theorem errorOf_eq (st : BusStatus) :
    errorOf st = if st = .nack then .noAcknowledge else .transferError := by
  cases st <;> rfl

/-- R53: a read that failed, or delivered a wrong number of bytes, counts as NACK only if it was answered so. -/
theorem readStatus_of_failed {n : Nat} {st : BusStatus} {bytes : List Byte} (h : st ≠ .ack ∨ bytes.length ≠ n) :
    readStatus n st bytes = if st = .nack then .nack else .err := by
  cases st with
  | ack => simpa using readStatus_ack_of_length_ne (h.resolve_left fun hne => hne rfl)
  | nack | err => rfl

section
variable {s : State} {st : BusStatus} {bytes : List Byte} (base : Byte)

/-- A failed start command is followed by no wait and no exchange (R90). -/
theorem convert_start_fails (h0 : s.answerAt 0 = .answered st bytes) (hst : st ≠ .ack) :
    convert base s = .fail (errorOf st) (s.after 1 [.write (convCommand s.osr base) st]) := by
  have hstart := checkedWrite_answered (b := convCommand s.osr base) ((nextAnswer_eq s).trans h0)
  rw [convert, hstart, check_not_ack hst, fail_andThen]

/-- After the start command and the wait, the check of the select's status decides whether the count is read (R90). -/
theorem convert_select (h0 : s.ackAt 0) (h1 : s.answerAt 1 = .answered st bytes) :
    convert base s =
      (check st (s.after 2
        [.write (convCommand s.osr base) .ack, .wait (Config.convWaitMs s.osr), .write 0x00#8 st])).andThen
          fun _ s => (checkedRead 3 s).andThen fun bytes s => .ok (countOfBytes bytes) s := by
  obtain ⟨_, h0⟩ := h0
  have hstart := checkedWrite_answered (b := convCommand s.osr base) ((nextAnswer_eq s).trans h0)
  have hselect := checkedWrite_answered (b := 0x00#8) ((nextAnswer_after s 1
    [.write (convCommand s.osr base) .ack, .wait (Config.convWaitMs s.osr)]).trans h1)
  simp [convert, hstart, hselect, Config.cmdAdcRead]

/-- A failed select is followed by no read (R90). -/
theorem convert_select_fails (h0 : s.ackAt 0) (h1 : s.answerAt 1 = .answered st bytes) (hst : st ≠ .ack) :
    convert base s = .fail (errorOf st) (s.after 2
      [.write (convCommand s.osr base) .ack, .wait (Config.convWaitMs s.osr), .write 0x00#8 st]) := by
  rw [convert_select base h0 h1, check_not_ack hst, fail_andThen]

/-- After the start command and the select, the check of the read's status decides how the conversion ends (R90). -/
theorem convert_read (h0 : s.ackAt 0) (h1 : s.ackAt 1) (h2 : s.answerAt 2 = .answered st bytes) :
    convert base s =
      (check (readStatus 3 st bytes) (s.after 3
        [.write (convCommand s.osr base) .ack, .wait (Config.convWaitMs s.osr), .write 0x00#8 .ack,
         .read 3 (readStatus 3 st bytes) bytes])).andThen fun _ s => .ok (countOfBytes bytes) s := by
  obtain ⟨_, h1⟩ := h1
  have hread := checkedRead_answered (n := 3) ((nextAnswer_after s 2
    [.write (convCommand s.osr base) .ack, .wait (Config.convWaitMs s.osr), .write 0x00#8 .ack]).trans h2)
  simp [convert_select base h0 h1, hread, andThen_assoc]

theorem convert_ok (h0 : s.ackAt 0) (h1 : s.ackAt 1) (h2 : s.answerAt 2 = .answered st bytes)
    (hst : readStatus 3 st bytes = .ack) :
    convert base s = .ok (countOfBytes bytes) (s.after 3
      [.write (convCommand s.osr base) .ack, .wait (Config.convWaitMs s.osr), .write 0x00#8 .ack,
       .read 3 .ack bytes]) := by
  rw [convert_read base h0 h1 h2, hst, check_ack, ok_andThen]

theorem convert_read_fails (h0 : s.ackAt 0) (h1 : s.ackAt 1) (h2 : s.answerAt 2 = .answered st bytes)
    (hst : readStatus 3 st bytes ≠ .ack) :
    convert base s = .fail (errorOf (readStatus 3 st bytes)) (s.after 3
      [.write (convCommand s.osr base) .ack, .wait (Config.convWaitMs s.osr), .write 0x00#8 .ack,
       .read 3 (readStatus 3 st bytes) bytes]) := by
  rw [convert_read base h0 h1 h2, check_not_ack hst, fail_andThen]

end

/-- Settles O36: the start fails, or the select, or the check of the read decides. -/
theorem conversionIsStartWaitSelectRead : Obligations.ConversionIsStartWaitSelectRead := by
  intro base s
  refine ⟨fun b0 b1 b2 h0 h1 h2 => ⟨be24 b0 b1 b2, toNat_be24 b0 b1 b2, ?_⟩, fun st bytes h0 hst => ?_,
    fun st bytes h0 h1 hst => ?_, fun st bytes h0 h1 h2 hbad => ?_⟩
  · rw [convert_ok base h0 h1 h2 rfl, countOfBytes_triple]
  · rw [convert_start_fails base h0 hst, errorOf_eq]
  · rw [convert_select_fails base h0 h1 hst, errorOf_eq]
  · have hst := readStatus_of_failed hbad
    rw [convert_read_fails base h0 h1 h2 (by rw [hst]; split <;> simp), hst]
    cases st <;> rfl

/-! ### READTP -/

theorem exec_readtp_cached {s : State} (hv : s.valid = true) :
    exec .readtp s =
      ((convert Config.convBaseT s).andThen fun d2 s =>
       (convert Config.convBaseP s).andThen fun d1 s =>
       (zeroGuard d2 d1 s).andThen fun _ s =>
       (readStore s).andThen fun t s => .ok (outputBytes (compensate d2 d1 t)) s).finish := by
  simp only [exec, execReadtp, ensureLoaded, hv, if_true, ok_andThen]

/-- The bytes of a compensated pair, joined again (R29, R48): both outputs fit s32 (R84). -/
theorem exists_outputBytes_compensate (d2 d1 : RawCount) (t : Table) :
    ∃ x3 x2 x1 x0 p3 p2 p1 p0 : Byte, outputBytes (compensate d2 d1 t) = [x3, x2, x1, x0, p3, p2, p1, p0] ∧
      ((x3 ++ x2 ++ x1 ++ x0 : BitVec 32).toInt, (p3 ++ p2 ++ p1 ++ p0 : BitVec 32).toInt) = compensate d2 d1 t := by
  obtain ⟨htout, hpressure⟩ := toInt_ofInt_compensate d2 d1 t
  obtain ⟨x3, x2, x1, x0, hx, hxw⟩ := exists_bytes32 (BitVec.ofInt 32 (compensate d2 d1 t).1)
  obtain ⟨p3, p2, p1, p0, hp, hpw⟩ := exists_bytes32 (BitVec.ofInt 32 (compensate d2 d1 t).2)
  refine ⟨x3, x2, x1, x0, p3, p2, p1, p0, ?_, ?_⟩
  · rw [outputBytes, hx, hp]
    rfl
  · rw [hxw, hpw, htout, hpressure]

/-- Settles O37: the guard passes, and the cached table compensates the two counts. -/
theorem readtpMeasuresWithCachedCoefficients : Obligations.ReadtpMeasuresWithCachedCoefficients := by
  refine ⟨decode_of_encode_eq rfl rfl, fun s t d2 d1 hv hprom h2 h1 hd2 hd1 => ?_⟩
  obtain ⟨x3, x2, x1, x0, p3, p2, p1, p0, hbytes, hpair⟩ := exists_outputBytes_compensate d2 d1 t
  refine ⟨x3, x2, x1, x0, p3, p2, p1, p0, ?_, hpair⟩
  rw [exec_readtp_measured hv hprom h2 h1 hd2 hd1, hbytes]
  simp [hv, State.after]

theorem exec_readtp_zero {s : State} {d2 d1 : RawCount} (hv : s.valid = true) (h2 : s.deliversCount 0 d2)
    (h1 : s.deliversCount 3 d1) (hzero : d2 = 0#24 ∨ d1 = 0#24) :
    exec .readtp s =
      .next (respond (.error .transferError) [] (s.after 6 (measureEvents s.osr d2 d1))) := by
  have hconvT := convert_delivered (es := []) Config.convBaseT h2
  have hconvP := convert_delivered (es := convEvents s.osr Config.convBaseT d2) Config.convBaseP h1
  rw [after_zero, List.nil_append] at hconvT
  rw [exec_readtp_cached hv, hconvT, ok_andThen, hconvP, ok_andThen, zeroGuard, if_pos hzero, fail_andThen,
    finish_fail]
  rfl

/-- Settles O40: the guard fails after both conversions, and the store is not read. -/
theorem zeroCountIsATransferError : Obligations.ZeroCountIsATransferError := by
  intro s d2 d1 hv h2 h1 hzero
  rw [exec_readtp_zero hv h2 h1 hzero]
  simp [hv, State.after]

/-! ### READTP from an empty cache -/

/-- READTP begins as LOAD does (R91): where EnsureLoaded has no result the two end alike, and where it commits a table READTP goes
on from the committed state as with the cache. -/
theorem readtp_load_cases {s : State} (hv : s.valid = false) :
    (∃ u : State, u.valid = true ∧ u.responses = s.responses ∧
      exec .load s = .next (respond .ok [] u) ∧ exec .readtp s = exec .readtp u) ∨
    (∃ u : State, u.valid = false ∧ exec .load s = .next u ∧ exec .readtp s = .next u) ∨
    (∃ f, exec .load s = .fault f ∧ exec .readtp s = .fault f) := by
  rcases ensureLoaded_cases allowsFetch_true s with
    ⟨hcached, -⟩ | ⟨-, k, es, t, -, -, h⟩ | ⟨-, k, es, e, -, h⟩ | ⟨-, k, kind, -, h⟩
  · simp [hv] at hcached
  · refine .inl ⟨(s.after k es).commit t, rfl, rfl, ?_, ?_⟩
    · simp only [exec, execLoad, h, ok_andThen, finish_ok]
    · rw [exec_readtp_cached (commit_valid _ t)]
      simp only [exec, execReadtp, h, ok_andThen]
  · refine .inr (.inl ⟨respond (.error e) [] (s.after k es), hv, ?_, ?_⟩)
    · simp only [exec, execLoad, h, fail_andThen, finish_fail]
    · simp only [exec, execReadtp, h, fail_andThen, finish_fail]
  · refine .inr (.inr ⟨.busNeverCompletes (exchange kind), ?_, ?_⟩)
    · simp only [exec, execLoad, h, stop_andThen, finish_stop]
    · simp only [exec, execReadtp, h, stop_andThen, finish_stop]

/-- Settles O38, by the three ends of EnsureLoaded from an empty cache. -/
theorem readtpLoadsFirst : Obligations.ReadtpLoadsFirst := by
  intro s hv
  rcases readtp_load_cases hv with ⟨u, huv, hresp, hload, hreadtp⟩ | ⟨u, huv, hload, hreadtp⟩ | ⟨f, hload, hreadtp⟩
  · refine ⟨by simp [hload, huv], by simp [hload], fun t ht _ => ?_⟩
    rw [hload] at ht
    cases ht
    rw [hreadtp, ← hresp]
    rfl
  · simp [hload, hreadtp, huv]
  · simp [hload, hreadtp]

theorem deliversCount_after {s : State} {k l : Nat} {d : RawCount} (h : s.deliversCount (k + l) d) (es : List Event) :
    (s.after k es).deliversCount l d := by
  obtain ⟨⟨b, hstart⟩, ⟨c, hselect⟩, hread⟩ := h
  exact ⟨⟨b, by rw [answerAt_after, hstart]⟩, ⟨c, by rw [answerAt_after, ← Nat.add_assoc, hselect]⟩,
    by rw [answerAt_after, ← Nat.add_assoc, hread]⟩

/-- A table that is delivered with a matching CRC is committed, and READTP goes on from there (R68, R91). -/
theorem exec_readtp_delivered {s : State} {t : Table} (hv : s.valid = false) (h : s.delivers t) (hcrc : crcOk t = true) :
    exec .readtp s = exec .readtp ((s.after 16 (fetchEvents t)).commit t) :=
  (readtpLoadsFirst s hv).2.2 _ (loadCommitsAFetchedTable.2 s t hv h hcrc) rfl

/-- Settles O39: LOAD commits the table, and from the state it leaves the two counts are the next delivered. -/
theorem readtpFromAnEmptyCache : Obligations.ReadtpFromAnEmptyCache := by
  intro s t d2 d1 hv h hcrc h2 h1 hd2 hd1
  refine ⟨?_, rfl⟩
  have hcount2 : ((s.after 16 (fetchEvents t)).commit t).deliversCount 0 d2 := deliversCount_after h2 (fetchEvents t)
  have hcount1 : ((s.after 16 (fetchEvents t)).commit t).deliversCount 3 d1 := deliversCount_after h1 (fetchEvents t)
  rw [exec_readtp_delivered hv h hcrc, exec_readtp_measured rfl rfl hcount2 hcount1 hd2 hd1]
  simp [State.commit, State.after]

/-! ### READTP's first failed exchange -/

/-- The events of a conversion's `j`-th exchange answered with a status and bytes: the wait stands before the select. -/
def convEventsAt (code : BitVec 3) (base : Byte) (j : Nat) (st : BusStatus) (bytes : List Byte) : List Event :=
  match j with
  | 0 => [.write (convCommand code base) st]
  | 1 => [.wait (Config.convWaitMs code), .write 0x00#8 st]
  | _ => [.read 3 (readStatus 3 st bytes) bytes]

/-- The events of a conversion's first `n` exchanges. -/
def convEventsTo (code : BitVec 3) (base : Byte) (answers : Nat → BusStatus × List Byte) (n : Nat) : List Event :=
  (List.range n).flatMap fun j => convEventsAt code base j (answers j).1 (answers j).2

/-- The events of the first `n` of READTP's six exchanges. -/
def measureEventsTo (code : BitVec 3) (answers : Nat → BusStatus × List Byte) (n : Nat) : List Event :=
  (List.range n).flatMap fun k => measureEventsAt code k (answers k).1 (answers k).2

section
variable (code : BitVec 3) (answers : Nat → BusStatus × List Byte) {n : Nat} (hn : n ≤ 3)
include hn

theorem measureEventsTo_first :
    measureEventsTo code answers n = convEventsTo code Config.convBaseT answers n := by
  interval_cases n <;> rfl

theorem measureEventsTo_second :
    measureEventsTo code answers (3 + n) = convEventsTo code Config.convBaseT answers 3 ++
      convEventsTo code Config.convBaseP (fun j => answers (3 + j)) n := by
  interval_cases n <;> rfl
end

/-- The second conversion's exchanges count as the first's. -/
theorem measureStatus_add (k : Nat) (st : BusStatus) (bytes : List Byte) :
    measureStatus (3 + k) st bytes = measureStatus k st bytes := by
  simp [measureStatus, measureIsRead]

/-- The exchanges of the conversions before number `n` succeed, number `n` is answered, and it does not. -/
structure State.MeasureFailsFirstAt (s : State) (n : Nat) (answers : Nat → BusStatus × List Byte) : Prop where
  answered : ∀ k ≤ n, s.answerAt k = .answered (answers k).1 (answers k).2
  before : ∀ k < n, measureStatus k (answers k).1 (answers k).2 = .ack
  fails : measureStatus n (answers n).1 (answers n).2 ≠ .ack

section
variable {s : State} {n : Nat} {answers : Nat → BusStatus × List Byte}

/-- After the first conversion the failing exchange is three nearer. -/
theorem State.MeasureFailsFirstAt.after_three (h : s.MeasureFailsFirstAt (3 + n) answers) (es : List Event) :
    (s.after 3 es).MeasureFailsFirstAt n (fun k => answers (3 + k)) where
  answered k hk := by rw [answerAt_after, h.answered (3 + k) (by omega)]
  before k hk := by rw [← measureStatus_add, h.before (3 + k) (by omega)]
  fails := by
    rw [← measureStatus_add]
    exact h.fails

variable (h : s.MeasureFailsFirstAt n answers)
include h

theorem status_start_of_measureFails (hn : 0 < n) : (answers 0).1 = .ack := h.before 0 hn

theorem status_select_of_measureFails (hn : 1 < n) : (answers 1).1 = .ack := h.before 1 hn

theorem ackAt_start_of_measureFails (hn : 0 < n) : s.ackAt 0 :=
  ⟨_, by rw [h.answered 0 hn.le, status_start_of_measureFails h hn]⟩

theorem ackAt_select_of_measureFails (hn : 1 < n) : s.ackAt 1 :=
  ⟨_, by rw [h.answered 1 hn.le, status_select_of_measureFails h hn]⟩

theorem convEventsTo_select (code : BitVec 3) (base : Byte) (hn : 0 < n) : convEventsTo code base answers 2 =
    [.write (convCommand code base) .ack, .wait (Config.convWaitMs code), .write 0x00#8 (answers 1).1] := by
  simp [convEventsTo, convEventsAt, List.range_succ, status_start_of_measureFails h hn]

theorem convEventsTo_read (code : BitVec 3) (base : Byte) (hn : 1 < n) : convEventsTo code base answers 3 =
    [.write (convCommand code base) .ack, .wait (Config.convWaitMs code), .write 0x00#8 .ack,
     .read 3 (readStatus 3 (answers 2).1 (answers 2).2) (answers 2).2] := by
  simp [convEventsTo, convEventsAt, List.range_succ, status_start_of_measureFails h (by omega),
    status_select_of_measureFails h hn]

/-- A conversion whose exchanges all succeed has a result, whatever the count. -/
theorem convert_before_failure (base : Byte) (hn : 3 ≤ n) :
    ∃ d, convert base s = .ok d (s.after 3 (convEventsTo s.osr base answers 3)) := by
  have hstart := ackAt_start_of_measureFails h (by omega)
  have hselect := ackAt_select_of_measureFails h (by omega)
  have hread : readStatus 3 (answers 2).1 (answers 2).2 = .ack := h.before 2 hn
  rw [convEventsTo_read h _ _ (by omega), hread]
  exact ⟨_, convert_ok base hstart hselect (h.answered 2 (by omega)) hread⟩

/-- A conversion ends at its first failed exchange: the start, the select or the read. -/
theorem convert_fails (base : Byte) (hn : n < 3) :
    convert base s = .fail (errorOf (measureStatus n (answers n).1 (answers n).2))
      (s.after (n + 1) (convEventsTo s.osr base answers (n + 1))) := by
  match n, hn with
  | 0, _ => exact convert_start_fails base (h.answered 0 le_rfl) h.fails
  | 1, _ =>
    have hstart := ackAt_start_of_measureFails h Nat.one_pos
    rw [convEventsTo_select h _ _ Nat.one_pos]
    exact convert_select_fails base hstart (h.answered 1 le_rfl) h.fails
  | 2, _ =>
    have hstart := ackAt_start_of_measureFails h two_pos
    have hselect := ackAt_select_of_measureFails h one_lt_two
    rw [convEventsTo_read h _ _ one_lt_two]
    exact convert_read_fails base hstart hselect (h.answered 2 le_rfl) h.fails

/-- READTP ends at the first failed exchange, in the first conversion or in the second (R91, R99). -/
theorem exec_readtp_fails (hv : s.valid = true) (hn : n < 6) :
    exec .readtp s = .next (respond (.error (errorOf (measureStatus n (answers n).1 (answers n).2))) []
      (s.after (n + 1) (measureEventsTo s.osr answers (n + 1)))) := by
  rw [exec_readtp_cached hv]
  by_cases hfirst : n < 3
  · rw [convert_fails h _ hfirst, fail_andThen, finish_fail, measureEventsTo_first _ _ (by omega)]
  · obtain ⟨m, rfl⟩ := Nat.exists_eq_add_of_le (Nat.le_of_not_lt hfirst)
    obtain ⟨d2, hconvT⟩ := convert_before_failure h Config.convBaseT (Nat.le_add_right 3 m)
    have hconvP := convert_fails (h.after_three (convEventsTo s.osr Config.convBaseT answers 3)) Config.convBaseP
      (by omega)
    rw [hconvT, ok_andThen, hconvP, fail_andThen, finish_fail, after_osr, after_after, Nat.add_assoc,
      measureEventsTo_second _ _ (by omega), measureStatus_add]

end

/-- R46, R56: the status byte of a failed exchange while `VALID` is 1. -/
theorem statusByte_errorOf_valid (st : BusStatus) :
    statusByte (.error (errorOf st)) true = if st = .nack then 0x05 else 0x06 := by
  cases st <;> rfl

/-- Settles O41: either conversion ends at its first failed exchange, and the guard is not reached. -/
theorem readtpEndsAtTheFirstFailedExchange : Obligations.ReadtpEndsAtTheFirstFailedExchange := by
  intro s n answers hv hn answered before fails
  rw [exec_readtp_fails ⟨answered, before, fails⟩ hv hn]
  simp [hv, statusByte_errorOf_valid, State.after, measureEventsTo]

end Sys2Proof.Machine

namespace Sys2Proof.Machine

/-! ### Refusals, and the fault NotValidated -/

/-- Settles O52: the only refusal is of a reserved resolution code. -/
theorem wellFormedRequestsAreNeverRefused : Obligations.WellFormedRequestsAreNeverRefused :=
  fun _ s why hwf => exec_ne_refused hwf s why

/-- The ends of an instruction that faults. -/
theorem exec_fault_cases {i : Instr} {s : State} {fault : Fault} (h : exec i s = .fault fault) :
    ExecCase (fun _ => True) i s (.fault fault) :=
  h ▸ exec_cases (allowsAll_true s.osr) i

/-- R96: COMP and READPROM observe the store, and fault while it is not validated. -/
theorem exec_readsStore_invalid {i : Instr} {s : State} (hreads : readsStore i = true) (hv : s.valid = false) :
    exec i s = .fault .notValidated := by
  cases i with
  | comp d2 d1 => exact exec_comp_invalid hv d2 d1
  | readprom slot => exact exec_readprom_invalid hv slot
  | init | probe | devreset | setres | load | crcchk | readtp => simp [readsStore] at hreads

/-- Settles O49: the fault has two origins, and the premise shuts out READTP's. -/
theorem notValidatedComesOfCompAndReadprom : Obligations.NotValidatedComesOfCompAndReadprom := by
  intro i s hinv
  refine ⟨fun h => ?_, fun ⟨hreads, hv⟩ => exec_readsStore_invalid hreads hv⟩
  cases exec_fault_cases h with
  | notValidated hreads unset =>
    refine ⟨hreads, unset.elim id fun hprom => ?_⟩
    rw [hinv, hprom, Option.isSome_none]
  | inconsistent _ hv hprom => simp [hv, hprom] at hinv

/-! ### Error statuses -/

theorem statusByte_mod_four (st : Status) (valid : Bool) : (statusByte st valid).toNat % 4 = st.code.toNat := by
  have hcode := st.code.isLt
  rw [statusByte_toNat]
  split <;> omega

/-- R46: code 3 is CrcError. -/
theorem code_toNat_eq_three {st : Status} : st.code.toNat = 3 ↔ st = .error .crcError := by
  rcases st with _ | (_ | _ | _) <;> simp [Status.code]

/-- R95: who responds with a status byte, said of the status and the `VALID` it is made of. -/
theorem exec_status {i : Instr} {s t : State} (h : exec i s = .next t) :
    ∃ (st : Status) (data : List Byte), t.responses = s.responses ++ [⟨statusByte st t.valid, data⟩] ∧
      (st ≠ .ok → i = .devreset ∨ i = .load ∨ i = .readtp) ∧
      (st = .error .crcError → (i = .load ∨ i = .readtp) ∧ t.valid = false ∧ t.prom = s.prom) := by
  cases exec_next_cases (allowsAll_true s.osr) h with
  | responds k es st data _ _ error crc =>
    exact ⟨st, data, rfl, error, fun hst => ⟨(crc hst).1, (crc hst).2, rfl⟩⟩
  | sets => exact ⟨.ok, [], rfl, by simp, by simp⟩
  | commits k es table l fs st data instr _ _ _ _ _ error =>
    exact ⟨st, data, rfl, fun _ => .inr instr, fun hst => absurd hst error⟩

/-- Settles O47: the status byte's low two bits are the status code; 07 would be CrcError with `VALID = 1`. -/
theorem errorStatusesByOperation : Obligations.ErrorStatusesByOperation := by
  intro i s t r hexec hresponses
  obtain ⟨st, data, hresponse, herror, hcrc⟩ := exec_status hexec
  obtain rfl : (⟨statusByte st t.valid, data⟩ : Response) = r := by simpa [hresponse] using hresponses
  simp only [statusByte_mod_four, ne_eq, code_toNat_eq_zero, code_toNat_eq_three]
  refine ⟨herror, hcrc, fun hseven => ?_⟩
  have hcode : st = .error .crcError := by
    rw [← code_toNat_eq_three, ← statusByte_mod_four st t.valid, hseven]
    rfl
  rw [hcode, (hcrc hcode).2.1] at hseven
  exact absurd hseven (by decide)

/-! ### Stuck sequences -/

/-- The exchanges `es` are answered well up to the `k`-th, and that one never is. -/
structure State.NeverAnsweredAt (s : State) (es : List ExchangeKind) (k : Nat) (kind : ExchangeKind) : Prop where
  made : es[k]? = some kind
  before : s.answersWell (es.take k)
  never : s.answerAt k = .never

section
variable {s : State} {es fs : List ExchangeKind} {k : Nat} {kind : ExchangeKind}

theorem State.NeverAnsweredAt.lt_length (h : s.NeverAnsweredAt es k kind) : k < es.length :=
  (List.getElem?_eq_some_iff.mp h.made).1

theorem not_neverAnsweredAt_nil : ¬ s.NeverAnsweredAt [] k kind := fun h => by
  simpa using h.lt_length

theorem neverAnsweredAt_singleton {kind' : ExchangeKind} :
    s.NeverAnsweredAt [kind'] k kind ↔ k = 0 ∧ kind' = kind ∧ s.answerAt 0 = .never := by
  constructor
  · intro h
    obtain rfl : k = 0 := by simpa using h.lt_length
    exact ⟨rfl, by simpa using h.made, h.never⟩
  · rintro ⟨rfl, rfl, hnever⟩
    exact ⟨rfl, answersWell_nil s, hnever⟩

/-- A commit takes no answer. -/
theorem neverAnsweredAt_commit (t : Table) : (s.commit t).NeverAnsweredAt es k kind ↔ s.NeverAnsweredAt es k kind :=
  ⟨fun ⟨made, before, never⟩ => ⟨made, before, never⟩, fun ⟨made, before, never⟩ => ⟨made, before, never⟩⟩

/-- In the first of two rows of exchanges. -/
theorem neverAnsweredAt_append_left (hk : k < es.length) :
    s.NeverAnsweredAt (es ++ fs) k kind ↔ s.NeverAnsweredAt es k kind := by
  have hmade := List.getElem?_append_left (l₂ := fs) hk
  have htake := List.take_append_of_le_length (l₂ := fs) hk.le
  exact ⟨fun ⟨made, before, never⟩ => ⟨hmade ▸ made, htake ▸ before, never⟩,
    fun ⟨made, before, never⟩ => ⟨hmade.symm ▸ made, htake.symm ▸ before, never⟩⟩

/-- In the second of two rows of exchanges, looked at from the state after the first. -/
theorem neverAnsweredAt_append_right (events : List Event) :
    s.NeverAnsweredAt (es ++ fs) (es.length + k) kind ↔
      s.answersWell es ∧ (s.after es.length events).NeverAnsweredAt fs k kind := by
  have hmade : (es ++ fs)[es.length + k]? = fs[k]? := by
    rw [List.getElem?_append_right (Nat.le_add_right _ k), Nat.add_sub_cancel_left]
  have hbefore : s.answersWell ((es ++ fs).take (es.length + k)) ↔
      s.answersWell es ∧ (s.after es.length events).answersWell (fs.take k) := by
    rw [List.take_length_add_append, answersWell_append]
  constructor
  · rintro ⟨made, before, never⟩
    obtain ⟨hes, hfs⟩ := hbefore.mp before
    exact ⟨hes, hmade ▸ made, hfs, by rw [answerAt_after, never]⟩
  · rintro ⟨hes, made, hfs, never⟩
    exact ⟨hmade.trans made, hbefore.mpr ⟨hes, hfs⟩, by rw [← answerAt_after s _ k events, never]⟩

/-- A sequence is stuck exactly on the first of its exchanges that is never answered. -/
theorem Res.Makes.stop_iff {α : Type} {r : Res α} (h : Res.Makes es s r) :
    r = .stop (.busNeverCompletes (exchange kind)) ↔ ∃ k, s.NeverAnsweredAt es k kind := by
  constructor
  · intro hr
    obtain ⟨k, kind', hfault, made, before, never⟩ := h.stop_inv hr
    obtain rfl : kind = kind' := by simpa [exchange] using hfault
    exact ⟨k, made, before, never⟩
  · rintro ⟨k, made, before, never⟩
    exact h.stuck k kind made before never

end

theorem andThen_eq_stop {α β : Type} {r : Res α} {f : α → State → Res β} {fault : Fault} :
    r.andThen f = .stop fault ↔ r = .stop fault ∨ ∃ a u, r = .ok a u ∧ f a u = .stop fault := by
  cases r <;> simp

theorem andThen_eq_ok {α β : Type} {r : Res α} {f : α → State → Res β} {b : β} {t : State} :
    r.andThen f = .ok b t ↔ ∃ a u, r = .ok a u ∧ f a u = .ok b t := by
  cases r <;> simp

theorem validate_ne_stop (t : Table) (s : State) (fault : Fault) : validate t s ≠ .stop fault := by
  unfold validate
  split <;> simp

theorem ensureLoaded_cached {s : State} (hv : s.valid = true) : ensureLoaded s = .ok () s := by
  rw [ensureLoaded, if_pos hv]

theorem ensureLoaded_empty {s : State} (hv : s.valid = false) :
    ensureLoaded s = (fetchSlots allSlots emptyStaging s).andThen validate := by
  rw [ensureLoaded, if_neg (by simp [hv])]

/-- EnsureLoaded is stuck only in the fetch (R68). -/
theorem ensureLoaded_stop_iff {s : State} (hv : s.valid = false) {kind : ExchangeKind} :
    ensureLoaded s = .stop (.busNeverCompletes (exchange kind)) ↔ ∃ k, s.NeverAnsweredAt fetchExchanges k kind := by
  have hfetch : Res.Makes fetchExchanges s (fetchSlots allSlots emptyStaging s) := fetchSlots_makes _ _ s
  rw [ensureLoaded_empty hv, andThen_eq_stop, ← hfetch.stop_iff]
  simp [validate_ne_stop]

/-- EnsureLoaded has a result from an empty cache only if all its exchanges were answered well and the table's CRC matches (R68). -/
theorem ensureLoaded_ok_inv {s u : State} (hv : s.valid = false) (h : ensureLoaded s = .ok () u) :
    s.answersWell fetchExchanges ∧
      ∃ t, s.delivers t ∧ crcOk t = true ∧ u = (s.after 16 (fetchEvents t)).commit t := by
  rw [ensureLoaded_empty hv] at h
  obtain ⟨t, s', hfetch, hvalidate⟩ := andThen_eq_ok.mp h
  have hmakes : Res.Makes fetchExchanges s (fetchSlots allSlots emptyStaging s) := fetchSlots_makes _ _ s
  obtain ⟨hwell, -⟩ := hmakes.ok_inv hfetch
  obtain ⟨t', hdelivers⟩ := delivers_of_answersWell hwell
  obtain ⟨rfl, rfl⟩ : t' = t ∧ s.after 16 (fetchEvents t') = s' := by
    simpa [fetchSlots_delivered hdelivers] using hfetch
  simp only [validate] at hvalidate
  split at hvalidate
  next hcrc => exact ⟨hwell, t', hdelivers, hcrc, by simpa using hvalidate.symm⟩
  next => cases hvalidate

/-! ### Stuck operations -/

/-- The two conversions of READTP (R90, R91), the sequence of `measure_makes`. -/
def measureCounts (s : State) : Res (RawCount × RawCount) :=
  (convert Config.convBaseT s).andThen fun d2 s => (convert Config.convBaseP s).andThen fun d1 s => .ok (d2, d1) s

/-- What READTP does with the counts (R91, R92). -/
def compensateCounts (d : RawCount × RawCount) (s : State) : Res (List Byte) :=
  (zeroGuard d.1 d.2 s).andThen fun _ s =>
  (readStore s).andThen fun t s => .ok (outputBytes (compensate d.1 d.2 t)) s

theorem execReadtp_eq_measureCounts (s : State) :
    exec .readtp s =
      ((ensureLoaded s).andThen fun _ u => (measureCounts u).andThen compensateCounts).finish := by
  simp [exec, execReadtp, measureCounts, compensateCounts, andThen_assoc]

/-- No exchange follows the conversions. -/
theorem compensateCounts_ne_stuck (d : RawCount × RawCount) (s : State) (x : Exchange) :
    compensateCounts d s ≠ .stop (.busNeverCompletes x) := by
  unfold compensateCounts zeroGuard
  split
  · simp
  · rcases readStore_cases s with ⟨t, -, -, h⟩ | ⟨-, h⟩ <;> simp [h]

/-- READTP is stuck in EnsureLoaded, or in a conversion from the state EnsureLoaded left (R91). -/
theorem exec_readtp_fault_iff {s : State} {kind : ExchangeKind} :
    exec .readtp s = .fault (.busNeverCompletes (exchange kind)) ↔
      ensureLoaded s = .stop (.busNeverCompletes (exchange kind)) ∨
      ∃ u, ensureLoaded s = .ok () u ∧ ∃ k, u.NeverAnsweredAt (measureExchanges u.osr) k kind := by
  have hmeasure : ∀ u, (measureCounts u).andThen compensateCounts = .stop (.busNeverCompletes (exchange kind)) ↔
      ∃ k, u.NeverAnsweredAt (measureExchanges u.osr) k kind := by
    intro u
    have hmakes : Res.Makes (measureExchanges u.osr) u (measureCounts u) := measure_makes u
    rw [andThen_eq_stop, ← hmakes.stop_iff]
    simp [compensateCounts_ne_stuck]
  rw [execReadtp_eq_measureCounts, finish_eq_fault, andThen_eq_stop]
  simp only [hmeasure]
  exact or_congr_right ⟨fun ⟨(), u, h⟩ => ⟨u, h⟩, fun ⟨u, h⟩ => ⟨(), u, h⟩⟩

/-- Where nothing follows a sequence but a response, the operation is stuck exactly when the sequence is. -/
theorem finish_andThen_ok_eq_fault {α : Type} {r : Res α} {data : α → State → List Byte} {fault : Fault} :
    (r.andThen fun a s => .ok (data a s) s).finish = .fault fault ↔ r = .stop fault := by
  rw [finish_eq_fault, andThen_eq_stop]
  simp

theorem exec_probe_fault_iff {s : State} {fault : Fault} : exec .probe s = .fault fault ↔ busProbe s = .stop fault :=
  finish_andThen_ok_eq_fault

theorem exec_devreset_fault_iff {s : State} {fault : Fault} :
    exec .devreset s = .fault fault ↔ checkedWrite Config.cmdReset s = .stop fault :=
  finish_andThen_ok_eq_fault

theorem exec_load_fault_iff {s : State} {fault : Fault} :
    exec .load s = .fault fault ↔ ensureLoaded s = .stop fault :=
  finish_andThen_ok_eq_fault

section
variable {i : Instr} {s : State} {k : Nat} {kind : ExchangeKind}

theorem State.StuckAt.neverAnsweredAt (h : s.StuckAt i k kind) : s.NeverAnsweredAt (exchangesOf i s) k kind :=
  ⟨h.made, h.before, h.never⟩

/-- The clause on the fetched table is about READTP's conversions after a fetch only. -/
theorem stuckAt_iff (hload : i = .readtp → s.valid = true ∨ k < 16) :
    s.StuckAt i k kind ↔ s.NeverAnsweredAt (exchangesOf i s) k kind := by
  refine ⟨State.StuckAt.neverAnsweredAt, fun ⟨made, before, never⟩ => ⟨made, before, fun hi hv hk => ?_, never⟩⟩
  rcases hload hi with hvalid | hlt
  · simp [hvalid] at hv
  · omega

theorem exchangesOf_eq_nil (hbus : usesBus i = false) (s : State) : exchangesOf i s = [] := by
  cases i with
  | init | setres | crcchk | comp | readprom => rfl
  | probe | devreset | load | readtp => simp [usesBus] at hbus

theorem exec_probe_stuck_iff :
    exec .probe s = .fault (.busNeverCompletes (exchange kind)) ↔ ∃ k, s.NeverAnsweredAt [.probe] k kind := by
  simp only [exec_probe_fault_iff, neverAnsweredAt_singleton, exists_eq_left]
  rw [← nextAnswer_eq]
  cases hanswer : s.nextAnswer with
  | answered st bytes => simp [busProbe_answered hanswer]
  | never => simp [busProbe_never hanswer, exchange]

theorem exec_load_stuck_iff :
    exec .load s = .fault (.busNeverCompletes (exchange kind)) ↔
      ∃ k, s.NeverAnsweredAt (exchangesOf .load s) k kind := by
  rw [exec_load_fault_iff]
  cases hv : s.valid with
  | true => simp [ensureLoaded_cached hv, exchangesOf, hv, not_neverAnsweredAt_nil]
  | false => simp [ensureLoaded_stop_iff hv, exchangesOf, hv]

theorem exec_readtp_stuck_iff_cached (hv : s.valid = true) :
    exec .readtp s = .fault (.busNeverCompletes (exchange kind)) ↔ ∃ k, s.StuckAt .readtp k kind := by
  simp [exec_readtp_fault_iff, stuckAt_iff, ensureLoaded_cached, exchangesOf, hv]

/-- From an empty cache the first 16 exchanges are the fetch's, and the others are made from the state LOAD leaves (R68, R91). -/
theorem exec_readtp_stuck_iff_empty (hv : s.valid = false) :
    exec .readtp s = .fault (.busNeverCompletes (exchange kind)) ↔ ∃ k, s.StuckAt .readtp k kind := by
  have hexchanges : exchangesOf .readtp s = fetchExchanges ++ measureExchanges s.osr := by simp [exchangesOf, hv]
  have hfirst : ∀ k < 16, s.StuckAt .readtp k kind ↔ s.NeverAnsweredAt fetchExchanges k kind := fun k hk => by
    rw [stuckAt_iff fun _ => .inr hk, hexchanges, neverAnsweredAt_append_left hk]
  have hlater : ∀ k t, s.NeverAnsweredAt (exchangesOf .readtp s) (16 + k) kind ↔
      s.answersWell fetchExchanges ∧
        ((s.after 16 (fetchEvents t)).commit t).NeverAnsweredAt (measureExchanges s.osr) k kind := fun k t => by
    rw [hexchanges, neverAnsweredAt_commit]
    exact neverAnsweredAt_append_right (es := fetchExchanges) (fetchEvents t)
  rw [exec_readtp_fault_iff, ensureLoaded_stop_iff hv]
  constructor
  · rintro (⟨k, hk⟩ | ⟨u, hok, k, hk⟩)
    · exact ⟨k, (hfirst k hk.lt_length).mpr hk⟩
    · obtain ⟨hwell, t, hdelivers, hcrc, rfl⟩ := ensureLoaded_ok_inv hv hok
      obtain ⟨made, before, never⟩ := (hlater k t).mpr ⟨hwell, hk⟩
      exact ⟨16 + k, made, before, fun _ _ _ => ⟨t, hdelivers, hcrc⟩, never⟩
  · rintro ⟨k, hk⟩
    by_cases hlt : k < 16
    · exact .inl ⟨k, (hfirst k hlt).mp hk⟩
    · obtain ⟨l, rfl⟩ := Nat.exists_eq_add_of_le (Nat.le_of_not_lt hlt)
      obtain ⟨t, hdelivers, hcrc⟩ := hk.loaded rfl hv (Nat.le_add_right 16 l)
      have hok : ensureLoaded s = .ok () ((s.after 16 (fetchEvents t)).commit t) := by
        rw [ensureLoaded_empty hv, fetchSlots_delivered hdelivers, ok_andThen, validate, if_pos hcrc]
      exact .inr ⟨_, hok, l, ((hlater l t).mp hk.neverAnsweredAt).2⟩

theorem exec_stuck_iff_of_no_bus (hbus : usesBus i = false) :
    exec i s = .fault (.busNeverCompletes (exchange kind)) ↔ ∃ k, s.StuckAt i k kind := by
  constructor
  · intro h
    cases exec_fault_cases h with
    | stuck k kind bus never => simp [hbus] at bus
  · rintro ⟨k, hk⟩
    exact absurd (exchangesOf_eq_nil hbus s ▸ hk.neverAnsweredAt) not_neverAnsweredAt_nil

/-- R98(a): an operation is stuck exactly on one of its own exchanges, reached and never answered. -/
theorem exec_stuck_iff :
    exec i s = .fault (.busNeverCompletes (exchange kind)) ↔ ∃ k, s.StuckAt i k kind := by
  cases i with
  | init | setres | crcchk | comp | readprom => exact exec_stuck_iff_of_no_bus rfl
  | probe => simpa [stuckAt_iff, exchangesOf] using exec_probe_stuck_iff
  | devreset => simpa [stuckAt_iff, exchangesOf, exec_devreset_fault_iff] using (checkedWrite_makes Config.cmdReset s).stop_iff
  | load => simpa [stuckAt_iff] using exec_load_stuck_iff
  | readtp =>
    cases hv : s.valid with
    | true => exact exec_readtp_stuck_iff_cached hv
    | false => exact exec_readtp_stuck_iff_empty hv

/-- Nothing comes before an operation's first exchange. -/
theorem exec_first_never (hmade : (exchangesOf i s)[0]? = some kind) (hnever : s.answerAt 0 = .never) :
    exec i s = .fault (.busNeverCompletes (exchange kind)) :=
  exec_stuck_iff.mpr ⟨0, hmade, answersWell_nil s, by simp, hnever⟩

end

theorem promCommand_zero : promCommand 0#3 = Config.promBase := by
  simp [promCommand]

/-- Settles O18: the first exchanges are the case `k = 0` of any exchange. -/
theorem unansweredExchangeIsStuck : Obligations.UnansweredExchangeIsStuck := by
  refine ⟨fun s hnever => ⟨?_, ?_, fun hv => ⟨?_, ?_⟩, fun hv => ?_⟩, fun i s k kind h => exec_stuck_iff.mpr ⟨k, h⟩⟩
  · exact exec_first_never rfl hnever
  · exact exec_first_never rfl hnever
  · exact exec_first_never (by simp [exchangesOf, hv, fetchExchanges, allSlots, promCommand_zero]) hnever
  · exact exec_first_never (by simp [exchangesOf, hv, fetchExchanges, allSlots, promCommand_zero]) hnever
  · exact exec_first_never (by simp [exchangesOf, hv, measureExchanges]) hnever

/-- Settles O50: every exchange is sent to `DEV_ADDR`, and the rest is `exec_stuck_iff`. -/
theorem stuckOnlyWhenTheBusNeverAnswers : Obligations.StuckOnlyWhenTheBusNeverAnswers := by
  intro i s x h
  cases exec_fault_cases h with
  | stuck k kind bus never => exact ⟨bus, rfl, exec_stuck_iff.mp h⟩

end Sys2Proof.Machine

namespace Sys2Proof.Machine

/-! ### Block reset and waiting -/

/-- An unfinished request is passed over, up to the next block reset or the end of the input (logs 1 and 7). -/
theorem fetch_of_truncated {sent : List Byte} (htruncated : decode sent = .rejected .truncated)
    {more : List HostInput} (hmore : leadingBytes more = []) :
    fetch (sent.map .byte ++ more) = fetchReset (fromReset more) := by
  simp [fetch, hmore, htruncated]

/-- With a block reset next, a step is the reset and nothing around it (R107). -/
theorem step_of_fetch_reset {s : State} {rest : List HostInput} (h : fetch s.inputs = .reset rest) :
    step s = .next (s.blockReset.withInputs rest) := by
  simp only [step, h]

/-- Settles O3: the bytes are passed over, so the block reset is fetched. -/
theorem blockResetDiscardsAnUnfinishedRequest : Obligations.BlockResetDiscardsAnUnfinishedRequest := by
  intro s sent rest htruncated hinputs
  have hfetch : fetch s.inputs = .reset rest := by
    rw [hinputs, fetch_of_truncated htruncated rfl]
    rfl
  exact step_of_fetch_reset hfetch

/-- Settles O2: a reset at the head of the input follows the empty unfinished request; VALID is lost by a reset alone since a
request keeps it, and DEVRESET never commits. -/
theorem blockResetClearsTheBlock : Obligations.BlockResetClearsTheBlock := by
  refine ⟨fun s rest => blockResetDiscardsAnUnfinishedRequest s [] rest rfl, ?_, ?_⟩
  · intro s t hstep hvalid hcleared
    rcases cachedCoefficientsStayUntilReset s t hstep hvalid with ⟨-, hkept⟩ | ⟨rest, hfetch⟩
    · cases hcleared.symm.trans hkept
    · rw [step_of_fetch_reset hfetch] at hstep
      exact ⟨rest, hfetch, (Host.Outcome.next.inj hstep).symm⟩
  · intro s t hexec
    rcases exec_store hexec with ⟨hprom, hvalid⟩ | ⟨hload, -⟩
    · exact ⟨hvalid, hprom⟩
    · cases hload

/-- Settles O4: the bytes are passed over, and no reset stands after them. -/
theorem idleBlockWaits : Obligations.IdleBlockWaits := by
  intro s sent htruncated hinputs
  have hfetch : fetch s.inputs = .idle := by
    rw [hinputs, ← List.append_nil (sent.map _), fetch_of_truncated htruncated rfl]
    rfl
  simp only [step, hfetch]

/-! ### Liveness -/

/-- Settles O51: the premises shut out a refusal and both faults, and a next state has one response more. -/
theorem requestsRespondWhenTheBusAnswers : Obligations.RequestsRespondWhenTheBusAnswers := by
  intro i s hwf hinv hstore hanswers
  cases hexec : exec i s with
  | next t =>
    obtain ⟨r, code, hresponses, -⟩ := everyRequestGetsOneResponse i s t hexec
    exact ⟨t, rfl, by simp [hresponses]⟩
  | fault f =>
    cases f with
    | notValidated =>
      obtain ⟨hreads, hinvalid⟩ := (notValidatedComesOfCompAndReadprom i s hinv).mp hexec
      cases hinvalid.symm.trans (hstore hreads)
    | busNeverCompletes x =>
      obtain ⟨-, -, k, hstuck⟩ := stuckOnlyWhenTheBusNeverAnswers i s x hexec
      exact absurd hstuck.never (hanswers k)
  | refused why => exact absurd hexec (exec_ne_refused hwf s why)

end Sys2Proof.Machine
